-- ==== Sys2Proof/Word.lean ====
section
/-! DEFINITION. The fixed widths of CORE (spec/00_scope.md R5, R6, R7, R26, R30): bit vectors for what the spec slices,
masks, adds or shows on a port. -/

namespace Sys2Proof

/-- A 32-bit value: an instruction word, the pc, a register value, an immediate (R5). Bit 0 is the least significant (R10). -/
abbrev Word := BitVec 32

/-- One byte of memory, 8 bits (R30). -/
abbrev Byte := BitVec 8

/-- A register index, one of 32 (R6, R27). -/
abbrev RegIdx := BitVec 5

/-- The opcode field `word[6:0]` (R26, R46). -/
abbrev Opcode := BitVec 7

/-- The function selector `funct3` (R27). -/
abbrev Funct3 := BitVec 3

/-- The function selector `funct7` (R27). -/
abbrev Funct7 := BitVec 7

end Sys2Proof
end

