-- ==== Sys2Proof/Syntax.lean ====
section
/-! DEFINITION. The instructions of spec/opcode_table.json: one constructor per row. A row is a decoder class, not an RV32I
mnemonic: R62 and R64 say that funct3 and funct7 are carried, never judged. -/

namespace Sys2Proof

/-- A word of one of the six formats, its fields pulled out of the bits (spec/30_encoding.md R48 to R53). An immediate is held
as the RAW value R55 to R59 assemble, at its logical width; the sign-extension stage of R60 is applied by the instruction's
meaning (Machine/FormatDecoders.lean). -/
inductive Instr where
  /-- R format, opcode 0x33 (R48, R72). -/
  | decodeR (rd : RegIdx) (funct3 : Funct3) (rs1 rs2 : RegIdx) (funct7 : Funct7)
  /-- I format, opcode 0x13 (R49, R73); `raw` is imm[11:0]. -/
  | decodeI (rd : RegIdx) (funct3 : Funct3) (rs1 : RegIdx) (raw : BitVec 12)
  /-- S format, opcode 0x23 (R50, R74); `raw` is imm[11:0]. The format has no rd. -/
  | decodeS (funct3 : Funct3) (rs1 rs2 : RegIdx) (raw : BitVec 12)
  /-- B format, opcode 0x63 (R51, R75); `raw` is imm[12:0], whose bit 0 is not encoded and is 0. -/
  | decodeB (funct3 : Funct3) (rs1 rs2 : RegIdx) (raw : BitVec 13)
  /-- U format, opcode 0x37 (R52, R76); `raw` is imm[31:0], whose low 12 bits are not encoded and are 0. -/
  | decodeU (rd : RegIdx) (raw : Word)
  /-- J format, opcode 0x6F (R53, R77); `raw` is imm[20:0], whose bit 0 is not encoded and is 0. -/
  | decodeJ (rd : RegIdx) (raw : BitVec 21)
  deriving DecidableEq, Repr

end Sys2Proof
end

