-- ==== Sys2Proof/WellFormed.lean ====
section
/-! DEFINITION. Which terms of Instr some word encodes: the immediate bits that a format does not encode are 0
(spec/30_encoding.md R51, R52, R53). Every value of every other field is well formed (R62). -/

namespace Sys2Proof

/-- The checks, one per format that has unencoded immediate bits. -/
def Instr.wf : Instr → Bool
  | .decodeR _ _ _ _ _ => true
  | .decodeI _ _ _ _ => true
  | .decodeS _ _ _ _ => true
  | .decodeB _ _ _ raw => raw.extractLsb' 0 1 == 0#1
  | .decodeU _ raw => raw.extractLsb' 0 12 == 0#12
  | .decodeJ _ raw => raw.extractLsb' 0 1 == 0#1

/-- `i` is a well-formed instruction. -/
abbrev Instr.WellFormed (i : Instr) : Prop := i.wf = true

end Sys2Proof
end

