-- ==== Sys2Proof/Decode.lean ====
section
/-! DEFINITION. The opcode classifier, the field extraction and immediate assembly of the six formats (spec/41_decode.md R71 to
R78, spec/30_encoding.md R45 to R59), the byte order of a word (R32), and, after them, the encoder. -/

namespace Sys2Proof

/-! ## Bits and bytes -/

/-- `w[start+len-1 : start]` (R11). -/
def slice (w : Word) (start len : Nat) : BitVec len := w.extractLsb' start len

/-- The opcode field `word[6:0]` (R46). -/
def opcodeOf (w : Word) : Opcode := slice w 0 7

/-- `{b3, b2, b1, b0}`: the word whose byte at the lowest address is `b0` (R32, R34). -/
def wordOfBytes (b0 b1 b2 b3 : Byte) : Word := b3 ++ b2 ++ b1 ++ b0

/-- Byte `k` of a word in memory order: `w[8k+7 : 8k]` (R32). -/
def byteOfWord (w : Word) (k : Nat) : Byte := slice w (8 * k) 8

/-! ## The opcode classifier -/

/-- The six formats (R25, R47). -/
inductive Format where
  | r | i | s | b | u | j
  deriving DecidableEq, Repr

/-- The closed opcode map of R47, "by exact match". -/
def formatOf (op : Opcode) : Option Format :=
  if op = 0x33#7 then some .r
  else if op = 0x13#7 then some .i
  else if op = 0x23#7 then some .s
  else if op = 0x63#7 then some .b
  else if op = 0x37#7 then some .u
  else if op = 0x6F#7 then some .j
  else none

/-- The opcode of a format (R47). -/
def Format.opcode : Format → Opcode
  | .r => 0x33#7
  | .i => 0x13#7
  | .s => 0x23#7
  | .b => 0x63#7
  | .u => 0x37#7
  | .j => 0x6F#7

/-- The one way decoding rejects a word (R78): the error carries the 7-bit opcode "and no other part of the word". -/
inductive DecodeError where
  | unsupportedOpcode (op : Opcode)
  deriving DecidableEq, Repr

/-! ## Field extraction at the shared positions of R54 -/

/-- `rd` is at 11:7. -/
def fieldRd (w : Word) : RegIdx := slice w 7 5

/-- `funct3` is at 14:12. -/
def fieldFunct3 (w : Word) : Funct3 := slice w 12 3

/-- `rs1` is at 19:15. -/
def fieldRs1 (w : Word) : RegIdx := slice w 15 5

/-- `rs2` is at 24:20. -/
def fieldRs2 (w : Word) : RegIdx := slice w 20 5

/-- `funct7` is at 31:25. -/
def fieldFunct7 (w : Word) : Funct7 := slice w 25 7

/-! ## Raw immediates -/

/-- `word[31:20]` (R55). -/
def rawI (w : Word) : BitVec 12 := slice w 20 12

/-- `{word[31:25], word[11:7]}` (R56). -/
def rawS (w : Word) : BitVec 12 := slice w 25 7 ++ slice w 7 5

/-- `{word[31], word[7], word[30:25], word[11:8], 0b0}` (R57). -/
def rawB (w : Word) : BitVec 13 := slice w 31 1 ++ slice w 7 1 ++ slice w 25 6 ++ slice w 8 4 ++ 0#1

/-- `word & 0xFFFFF000` (R58). -/
def rawU (w : Word) : Word := w &&& 0xFFFFF000#32

/-- `{word[31], word[19:12], word[20], word[30:21], 0b0}` (R59). -/
def rawJ (w : Word) : BitVec 21 := slice w 31 1 ++ slice w 12 8 ++ slice w 20 1 ++ slice w 21 10 ++ 0#1

/-! ## Decoding -/

/-- The instruction a word of format `f` holds (R72 to R77). -/
def instrOf (f : Format) (w : Word) : Instr :=
  match f with
  | .r => .decodeR (fieldRd w) (fieldFunct3 w) (fieldRs1 w) (fieldRs2 w) (fieldFunct7 w)
  | .i => .decodeI (fieldRd w) (fieldFunct3 w) (fieldRs1 w) (rawI w)
  | .s => .decodeS (fieldFunct3 w) (fieldRs1 w) (fieldRs2 w) (rawS w)
  | .b => .decodeB (fieldFunct3 w) (fieldRs1 w) (fieldRs2 w) (rawB w)
  | .u => .decodeU (fieldRd w) (rawU w)
  | .j => .decodeJ (fieldRd w) (rawJ w)

/-- DECODE (R71): only `word[6:0]` selects the format; any other opcode is rejected by name (R78). Total on every word (R79). -/
def decode (w : Word) : Except DecodeError Instr :=
  match formatOf (opcodeOf w) with
  | some f => .ok (instrOf f w)
  | none => .error (.unsupportedOpcode (opcodeOf w))

/-- The decoder on bytes in memory order, with the bytes left over; `none` where fewer than four bytes are left or the word is
rejected. Every instruction is one 32-bit word (R45). -/
def decodeBytes : List Byte → Option (Instr × List Byte)
  | b0 :: b1 :: b2 :: b3 :: rest =>
    match decode (wordOfBytes b0 b1 b2 b3) with
    | .ok i => some (i, rest)
    | .error _ => none
  | _ => none

/-- The word that an opcode-table entry of `nbits` bits with value `w` stands for: bits above `nbits` are 0. Every row of this
table has 32 bits; bits above the first word are dropped, since no instruction has a second word (R45). -/
def tableWord (nbits w : Nat) : Word := BitVec.ofNat 32 (w % 2 ^ nbits)

/-- The instruction the decoder reads from the bytes of a table word, laid out little-endian (R32). -/
def decodeTableWord (nbits w : Nat) : Option Instr :=
  let v := tableWord nbits w
  (decodeBytes [byteOfWord v 0, byteOfWord v 1, byteOfWord v 2, byteOfWord v 3]).map (·.1)

/-! ## Encoding, written from the tables of R48 to R53 (fields from bit 31 down) -/

/-- The format of an instruction. -/
def Instr.format : Instr → Format
  | .decodeR _ _ _ _ _ => .r
  | .decodeI _ _ _ _ => .i
  | .decodeS _ _ _ _ => .s
  | .decodeB _ _ _ _ => .b
  | .decodeU _ _ => .u
  | .decodeJ _ _ => .j

/-- The word of a well-formed instruction. -/
def encode : Instr → Word
  -- R48: funct7 31:25, rs2 24:20, rs1 19:15, funct3 14:12, rd 11:7, opcode 6:0
  | .decodeR rd funct3 rs1 rs2 funct7 => funct7 ++ rs2 ++ rs1 ++ funct3 ++ rd ++ 0b0110011#7
  -- R49: imm[11:0] 31:20
  | .decodeI rd funct3 rs1 raw => raw ++ rs1 ++ funct3 ++ rd ++ 0b0010011#7
  -- R50: imm[11:5] 31:25, imm[4:0] 11:7
  | .decodeS funct3 rs1 rs2 raw =>
    raw.extractLsb' 5 7 ++ rs2 ++ rs1 ++ funct3 ++ raw.extractLsb' 0 5 ++ 0b0100011#7
  -- R51: imm[12] 31, imm[10:5] 30:25, imm[4:1] 11:8, imm[11] 7
  | .decodeB funct3 rs1 rs2 raw =>
    raw.extractLsb' 12 1 ++ raw.extractLsb' 5 6 ++ rs2 ++ rs1 ++ funct3
      ++ raw.extractLsb' 1 4 ++ raw.extractLsb' 11 1 ++ 0b1100011#7
  -- R52: imm[31:12] 31:12
  | .decodeU rd raw => raw.extractLsb' 12 20 ++ rd ++ 0b0110111#7
  -- R53: imm[20] 31, imm[10:1] 30:21, imm[11] 20, imm[19:12] 19:12
  | .decodeJ rd raw =>
    raw.extractLsb' 20 1 ++ raw.extractLsb' 1 10 ++ raw.extractLsb' 11 1 ++ raw.extractLsb' 12 8
      ++ rd ++ 0b1101111#7

/-- The bytes of a well-formed instruction in memory order (R32). -/
def encodeBytes (i : Instr) : List Byte :=
  [byteOfWord (encode i) 0, byteOfWord (encode i) 1, byteOfWord (encode i) 2, byteOfWord (encode i) 3]

end Sys2Proof
end

