-- ==== Sys2Proof/Config.lean ====
section
/-! DEFINITION. The parameters a CORE is constructed with (spec/00_scope.md R8, R9). They are plain data carried by State and
changed by no step and no environment move (R88), so a statement over every State is a statement over every value of every
parameter: MEM_SIZE, FETCH_MISALIGNED, RESET_PC and MEM_INIT are arguments of the model, as the spec asks (notes/assumptions/1.md). -/

namespace Sys2Proof

/-- The two settings of `FETCH_MISALIGNED` (R9, R36, R67). -/
inductive FetchMisaligned where
  /-- A fetch at a pc that is not a multiple of 4 raises `MisalignedFetch`: the default. -/
  | fault
  /-- No alignment check: the four bytes at pc..pc+3 are read. -/
  | readBytes
  deriving DecidableEq, Repr

/-- Memory contents: the listed (address, byte) pairs, addresses strictly rising, no entry equal to what an unlisted address
reads as (`Memory.wf` in Machine/Ops.lean). Every function from 0..MEM_SIZE-1 to bytes has such a list
(Laws/Memory.lean, `exists_memory_of_bytes`), so the form restricts no contents (notes/assumptions/3.md). -/
abbrev Memory := List Host.Cell

/-- The construction parameters (R8, R9). R9: "No other parameter exists". -/
structure Params where
  /-- `MEM_SIZE`: the capacity in bytes; R8 bounds it by 2^32 (a part of `Machine.Inv`, since the type does not). -/
  memSize : Nat
  /-- `FETCH_MISALIGNED` (R67). -/
  fetchMisaligned : FetchMisaligned
  /-- `RESET_PC` (R106), OPEN in the spec. -/
  resetPc : Word
  /-- `MEM_INIT` (R108), OPEN in the spec. -/
  memInit : Memory
  deriving DecidableEq, Repr

/-- The parameters `State.reset` is constructed with. `MEM_SIZE` and `FETCH_MISALIGNED` are the spec's defaults (R8, R9).
DESIGN CHOICE, unsafe: the spec leaves `RESET_PC` and `MEM_INIT` OPEN; here they are 0 (the value most of
spec/95_test_vectors.md uses, R106) and "nothing listed" (notes/assumptions/2.md, 3.md). -/
def Params.default : Params where
  memSize := 1048576
  fetchMisaligned := .fault
  resetPc := 0#32
  memInit := []

end Sys2Proof
end

