-- ==== Sys2Proof/Machine/State.lean ====
section
/-! DEFINITION. The machine's state as plain data: CORE's own two registers (spec/10_state.md R15), the processor context it
refers to (R18, R24), its construction parameters (R8, R9), and the results it has delivered (R87, R90). -/

namespace Sys2Proof.Machine

/-- The three errors of R91: the values the `fault` register holds, and the reason the machine stops with once one is held. -/
inductive Fault where
  /-- Raised by DECODE on a word whose opcode is outside the six (R78, R92); the step adds the fetch address (R86). The spec
  names this error, so recording it and stopping is no departure: safe. -/
  | unsupportedOpcode (op : Opcode) (addr : Word)
  /-- Raised by FETCH when a byte of the word lies outside memory (R66, R93); carries the pc of the fetch. The spec names it: safe. -/
  | outOfBounds (addr : Word)
  /-- Raised by FETCH at a pc that is not a multiple of 4 when `FETCH_MISALIGNED = Fault` (R67, R94); carries that pc. The spec
  names it: safe. -/
  | misalignedFetch (addr : Word)
  deriving DecidableEq, Repr

/-- Why an instruction could be refused. -/
inductive Refusal where
  /-- An arm of `exec` that has no meaning yet would answer this. No arm does: every instruction has its meaning. Safe. -/
  | notModelled (mnemonic : String)
  deriving DecidableEq, Repr

/-- The decoded value handed to the execution stage: "a tagged variant over six formats" (R25), each with the common field
`opcode` (R26) and no field outside its row. Every `imm` is a 32-bit vector (R28). -/
inductive DecodedInstruction where
  | r (opcode : Opcode) (rd rs1 rs2 : RegIdx) (funct3 : Funct3) (funct7 : Funct7)
  | i (opcode : Opcode) (rd rs1 : RegIdx) (funct3 : Funct3) (imm : Word)
  | s (opcode : Opcode) (rs1 rs2 : RegIdx) (funct3 : Funct3) (imm : Word)
  | b (opcode : Opcode) (rs1 rs2 : RegIdx) (funct3 : Funct3) (imm : Word)
  | u (opcode : Opcode) (rd : RegIdx) (imm : Word)
  | j (opcode : Opcode) (rd : RegIdx) (imm : Word)
  deriving DecidableEq, Repr

/-- `Decoded(a, r, d)` of R87: the instruction's address, the raw word and the decoded variant. -/
structure Delivery where
  addr : Word
  raw : Word
  value : DecodedInstruction
  deriving DecidableEq, Repr

/-- The state. -/
structure State where
  /-- The construction parameters; nothing but construction sets them (R8, R9, R88). -/
  params : Params
  /-- The program counter (R16). -/
  pc : Word
  /-- The sticky fault status: `none`, or the error that stopped CORE (R23). -/
  fault : Option Fault
  /-- The external byte memory (R24); addresses 0..MEM_SIZE-1 exist (R30). -/
  mem : Memory
  /-- The external register file, 32 words (R18); CORE neither reads nor writes it. -/
  regs : Vector Word 32
  /-- The `a` of the step under way (R83): the address of the word last fetched. The model's own field
  (notes/assumptions/9.md): FETCH writes it, the delivery reads it. -/
  fetchAddr : Word
  /-- The Fetch Unit's output `raw` (R29), connected to the Decoder's input `word`: the word last fetched. -/
  raw : Word
  /-- "The sequence of `Decoded` values delivered so far" (R90), oldest first. -/
  delivered : List Delivery
  deriving DecidableEq, Repr

/-- Construction, which the spec takes as reset (R105): pc at RESET_PC (R106), no fault (R107), memory at MEM_INIT (R108), and
nothing delivered yet. The register file's contents are unspecified (R109), so they are an argument. The latches of the fetch
port carry no word yet; they hold 0, and nothing reads them before a fetch writes them (notes/assumptions/9.md). -/
def State.construct (p : Params) (regs : Vector Word 32) : State where
  params := p
  pc := p.resetPc
  fault := none
  mem := p.memInit
  regs := regs
  fetchAddr := 0#32
  raw := 0#32
  delivered := []

/-- The state right after reset under the default parameters. DESIGN CHOICE, unsafe: R109 leaves every register unspecified;
here each holds 0 (notes/assumptions/4.md). -/
def State.reset : State := State.construct Params.default (Vector.replicate 32 0#32)

end Sys2Proof.Machine
end

