-- ==== Sys2Proof/Machine/Operands.lean ====
section
/-! DEFINITION. The operand forms: the sign-extension stage (spec/30_encoding.md R60), the immediate of each format (R55 to R59),
the decoded value of each format (spec/10_state.md R25 to R28), and how a decoded value's fields are read. -/

namespace Sys2Proof.Machine

/-- The sign-extension stage, as R60 gives it: test the raw value's top bit; if it is set, OR in a mask of bits 31..w. -/
def signext (w : Nat) (raw : BitVec w) : Word :=
  if raw.msb then raw.setWidth 32 ||| (0xFFFFFFFF#32 <<< w) else raw.setWidth 32

/-- The immediate of an I value (R55). -/
def immI (raw : BitVec 12) : Word := signext 12 raw

/-- The immediate of an S value (R56). -/
def immS (raw : BitVec 12) : Word := signext 12 raw

/-- The immediate of a B value (R57). -/
def immB (raw : BitVec 13) : Word := signext 13 raw

/-- The immediate of a U value: not shifted, and it bypasses the sign-extension stage (R58, R60). -/
def immU (raw : Word) : Word := raw

/-- The immediate of a J value (R59). -/
def immJ (raw : BitVec 21) : Word := signext 21 raw

/-- The decoded value of an instruction; every variant carries the opcode that selected it (R26). -/
def valueOf : Instr → DecodedInstruction
  | .decodeR rd funct3 rs1 rs2 funct7 => .r Format.r.opcode rd rs1 rs2 funct3 funct7
  | .decodeI rd funct3 rs1 raw => .i Format.i.opcode rd rs1 funct3 (immI raw)
  | .decodeS funct3 rs1 rs2 raw => .s Format.s.opcode rs1 rs2 funct3 (immS raw)
  | .decodeB funct3 rs1 rs2 raw => .b Format.b.opcode rs1 rs2 funct3 (immB raw)
  | .decodeU rd raw => .u Format.u.opcode rd (immU raw)
  | .decodeJ rd raw => .j Format.j.opcode rd (immJ raw)

/-- `Decode(word)` of R71 as one function of the word alone (R79): a variant, or UnsupportedOpcode. -/
def decodeWord (w : Word) : Except DecodeError DecodedInstruction := (decode w).map valueOf

/-! ## Reading a decoded value: `none` where the variant has no such field (R25) -/

/-- The tag of a variant. -/
def DecodedInstruction.format : DecodedInstruction → Format
  | .r _ _ _ _ _ _ => .r
  | .i _ _ _ _ _ => .i
  | .s _ _ _ _ _ => .s
  | .b _ _ _ _ _ => .b
  | .u _ _ _ => .u
  | .j _ _ _ => .j

/-- The common field (R26). -/
def DecodedInstruction.opcode : DecodedInstruction → Opcode
  | .r op _ _ _ _ _ => op
  | .i op _ _ _ _ => op
  | .s op _ _ _ _ => op
  | .b op _ _ _ _ => op
  | .u op _ _ => op
  | .j op _ _ => op

/-- The destination index of an R, I, U or J value. -/
def DecodedInstruction.rd? : DecodedInstruction → Option RegIdx
  | .r _ rd _ _ _ _ => some rd
  | .i _ rd _ _ _ => some rd
  | .s _ _ _ _ _ => none
  | .b _ _ _ _ _ => none
  | .u _ rd _ => some rd
  | .j _ rd _ => some rd

/-- The first source index of an R, I, S or B value. -/
def DecodedInstruction.rs1? : DecodedInstruction → Option RegIdx
  | .r _ _ rs1 _ _ _ => some rs1
  | .i _ _ rs1 _ _ => some rs1
  | .s _ rs1 _ _ _ => some rs1
  | .b _ rs1 _ _ _ => some rs1
  | .u _ _ _ => none
  | .j _ _ _ => none

/-- The second source index of an R, S or B value. -/
def DecodedInstruction.rs2? : DecodedInstruction → Option RegIdx
  | .r _ _ _ rs2 _ _ => some rs2
  | .i _ _ _ _ _ => none
  | .s _ _ rs2 _ _ => some rs2
  | .b _ _ rs2 _ _ => some rs2
  | .u _ _ _ => none
  | .j _ _ _ => none

/-- The selector of an R, I, S or B value. -/
def DecodedInstruction.funct3? : DecodedInstruction → Option Funct3
  | .r _ _ _ _ f _ => some f
  | .i _ _ _ f _ => some f
  | .s _ _ _ f _ => some f
  | .b _ _ _ f _ => some f
  | .u _ _ _ => none
  | .j _ _ _ => none

/-- The selector only an R value has. -/
def DecodedInstruction.funct7? : DecodedInstruction → Option Funct7
  | .r _ _ _ _ _ f => some f
  | .i _ _ _ _ _ => none
  | .s _ _ _ _ _ => none
  | .b _ _ _ _ _ => none
  | .u _ _ _ => none
  | .j _ _ _ => none

/-- The immediate every variant but R has. -/
def DecodedInstruction.imm? : DecodedInstruction → Option Word
  | .r _ _ _ _ _ _ => none
  | .i _ _ _ _ imm => some imm
  | .s _ _ _ _ imm => some imm
  | .b _ _ _ _ imm => some imm
  | .u _ _ imm => some imm
  | .j _ _ imm => some imm

/-- What an immediate means as an integer (R28): `toSigned` for I, S, B and J, `toUnsigned` for U. -/
def DecodedInstruction.immMeaning? : DecodedInstruction → Option Int
  | .r _ _ _ _ _ _ => none
  | .i _ _ _ _ imm => some imm.toInt
  | .s _ _ _ _ imm => some imm.toInt
  | .b _ _ _ _ imm => some imm.toInt
  | .u _ _ imm => some (Int.ofNat imm.toNat)
  | .j _ _ imm => some imm.toInt

end Sys2Proof.Machine
end

