-- ==== Sys2Proof/Machine/Ops.lean ====
section
/-! DEFINITION. The shared operations: memory, the register file of the processor context, FETCH (spec/40_fetch.md R65 to R70),
raising an error (spec/60_exceptions.md R98; R99: there is no return from one but reset), and delivering a decoded value
(spec/42_step.md R87). -/

namespace Sys2Proof

/-! ## Memory contents -/

/-- What an unlisted address below MEM_SIZE reads as. DESIGN CHOICE (notes/assumptions/3.md): it only fixes how contents are
written down, since every contents has a list; it is unsafe in `State.reset` alone, whose MEM_INIT lists nothing. -/
def Memory.unlisted : Byte := 0#8

/-- The byte at an address (R13, R33). A read changes nothing. -/
def Memory.read : Memory → Nat → Byte
  | [], _ => Memory.unlisted
  | (k, v) :: m, a => if k = a then v else Memory.read m a

/-- The contents with the byte at `a` replaced; keeps the canonical form. Only the environment writes memory (R35, R88). -/
def Memory.write : Memory → Nat → Byte → Memory
  | [], a, b => if b = Memory.unlisted then [] else [(a, b)]
  | (k, v) :: m, a, b =>
    if k < a then (k, v) :: Memory.write m a b
    else
      let rest : Memory := if k = a then m else (k, v) :: m
      if b = Memory.unlisted then rest else (a, b) :: rest

/-- Addresses strictly rising from `lo` on, and no entry equal to what an unlisted address reads as. -/
def Memory.wfFrom : Nat → Memory → Bool
  | _, [] => true
  | lo, (k, v) :: m => decide (lo ≤ k) && (v != Memory.unlisted) && Memory.wfFrom (k + 1) m

/-- The canonical form. -/
def Memory.wf (m : Memory) : Bool := Memory.wfFrom 0 m

/-- No address at or above `size` is listed (R30: such an address holds no byte). -/
def Memory.within (size : Nat) (m : Memory) : Bool := m.all fun c => decide (c.1 < size)

end Sys2Proof

namespace Sys2Proof.Machine

/-! ## Memory as CORE sees it -/

/-- `MemByte(a)`, defined for 0 <= a < MEM_SIZE (R13); an address at or above MEM_SIZE holds no byte (R30). -/
def memByte (s : State) (a : Nat) : Option Byte :=
  if a < s.params.memSize then some (s.mem.read a) else none

/-- The word whose bytes stand at `a`..`a+3`, little-endian (R32). -/
def wordAt (s : State) (a : Nat) : Word :=
  wordOfBytes (s.mem.read a) (s.mem.read (a + 1)) (s.mem.read (a + 2)) (s.mem.read (a + 3))

/-- Some byte of the word at `addr` is outside memory; the sum is not wrapped (R34, R66). -/
def outOfBoundsAt (s : State) (addr : Word) : Bool := decide (s.params.memSize ≤ addr.toNat + 3)

/-- `MemRead(addr, 4)` (R34), the only memory operation CORE makes (R31, R37). -/
def memRead (s : State) (addr : Word) : Except Fault Word :=
  if outOfBoundsAt s addr then .error (.outOfBounds addr) else .ok (wordAt s addr.toNat)

/-- The environment's write of one byte (R88(b)); an address outside 0..MEM_SIZE-1 holds no byte to write. -/
def writeByte (s : State) (a : Nat) (b : Byte) : State :=
  if a < s.params.memSize then { s with mem := s.mem.write a b } else s

/-! ## The register file of the processor context: no CORE rule uses these (R14, R18) -/

/-- `x[i]` (R14). Index 0 is an index like any other (R18). -/
def readReg (s : State) (i : RegIdx) : Word := s.regs.get i.toFin

/-- `x[i] <- v` (R14). -/
def writeReg (s : State) (i : RegIdx) (v : Word) : State := { s with regs := s.regs.set i.toNat v i.isLt }

/-! ## FETCH -/

/-- The alignment check of R67 fires: `FETCH_MISALIGNED = Fault` and `a[1:0] ≠ 0b00`. -/
def misalignedAt (s : State) (a : Word) : Bool :=
  decide (s.params.fetchMisaligned = .fault ∧ slice a 0 2 ≠ 0#2)

/-- What a successful fetch writes: `pc <- (pc + 4) mod 2^32` (R68), and the fetch port's latches. Nothing else (R70). -/
def advance (s : State) (w : Word) : State := { s with pc := s.pc + 4#32, fetchAddr := s.pc, raw := w }

/-- FETCH (R65): alignment first, then bounds (R97), then the four bytes. On an error nothing is written (R17(b)). -/
def fetch (s : State) : Except Fault (Word × State) :=
  if misalignedAt s s.pc then .error (.misalignedFetch s.pc)
  else
    match memRead s s.pc with
    | .error e => .error e
    | .ok w => .ok (w, advance s w)

/-- The byte addresses the fetch at this state drives on `mem_byte_addr`, in order (R29, R33, R34); none where it raises. -/
def fetchReads (s : State) : List Nat :=
  if misalignedAt s s.pc || outOfBoundsAt s s.pc then []
  else [s.pc.toNat, s.pc.toNat + 1, s.pc.toNat + 2, s.pc.toNat + 3]

/-! ## Errors and deliveries -/

/-- Raising an error, the one operation that takes it (R98): `fault` receives it; there is no vector, no saved pc and no mode.
The pc is where FETCH left it: unchanged on a fetch error (R85), advanced on a decode error (R86). -/
def raise (e : Fault) (s : State) : State := { s with fault := some e }

/-- The fault a decode error becomes: the step adds the fetch address (R86). -/
def faultOfDecode (s : State) : DecodeError → Fault
  | .unsupportedOpcode op => .unsupportedOpcode op s.fetchAddr

/-- Delivering `Decoded(a, r, d)` to the execution stage (R87). No register, no memory and no pc is written (R18, R35, R89). -/
def deliver (d : DecodedInstruction) (s : State) : State :=
  { s with delivered := s.delivered ++ [⟨s.fetchAddr, s.raw, d⟩] }

/-! ## Placing an instruction word where the next step fetches -/

/-- `s` with the word `w` stored at the pc and no fault held, so that the next step fetches `w` wherever the pc admits a fetch. -/
def placeWord (s : State) (w : Word) : State :=
  let a := s.pc.toNat
  writeByte (writeByte (writeByte (writeByte { s with fault := none }
    a (byteOfWord w 0)) (a + 1) (byteOfWord w 1)) (a + 2) (byteOfWord w 2)) (a + 3) (byteOfWord w 3)

end Sys2Proof.Machine
end

