-- ==== Sys2Proof/Machine/FormatDecoders.lean ====
section
/-! DEFINITION. The meanings: one per row of spec/opcode_table.json. Each applies its format's immediate stage (spec/41_decode.md
R72 to R77) and delivers the variant (spec/42_step.md R87). None checks a field (R62), none can fail ("Exceptions: none"), and
none writes a register, memory, a flag or the pc (R18, R19, R35, R89): executing the decoded value is out of scope (R4). -/

namespace Sys2Proof.Machine

/-- DecodeR (R72). -/
def execDecodeR (rd : RegIdx) (funct3 : Funct3) (rs1 rs2 : RegIdx) (funct7 : Funct7) (s : State) :
    Host.Outcome State Fault Refusal :=
  .next (deliver (valueOf (.decodeR rd funct3 rs1 rs2 funct7)) s)

/-- DecodeI (R73). -/
def execDecodeI (rd : RegIdx) (funct3 : Funct3) (rs1 : RegIdx) (raw : BitVec 12) (s : State) :
    Host.Outcome State Fault Refusal :=
  .next (deliver (valueOf (.decodeI rd funct3 rs1 raw)) s)

/-- DecodeS (R74). The layout of R50, not the defective source's (spec/90_conflicts.md C4). -/
def execDecodeS (funct3 : Funct3) (rs1 rs2 : RegIdx) (raw : BitVec 12) (s : State) :
    Host.Outcome State Fault Refusal :=
  .next (deliver (valueOf (.decodeS funct3 rs1 rs2 raw)) s)

/-- DecodeB (R75). No target is computed (R89). -/
def execDecodeB (funct3 : Funct3) (rs1 rs2 : RegIdx) (raw : BitVec 13) (s : State) :
    Host.Outcome State Fault Refusal :=
  .next (deliver (valueOf (.decodeB funct3 rs1 rs2 raw)) s)

/-- DecodeU (R76). -/
def execDecodeU (rd : RegIdx) (raw : Word) (s : State) : Host.Outcome State Fault Refusal :=
  .next (deliver (valueOf (.decodeU rd raw)) s)

/-- DecodeJ (R77). No link register is written and no target is computed (R89). -/
def execDecodeJ (rd : RegIdx) (raw : BitVec 21) (s : State) : Host.Outcome State Fault Refusal :=
  .next (deliver (valueOf (.decodeJ rd raw)) s)

end Sys2Proof.Machine
end

