-- ==== Sys2Proof/Machine/Dispatch.lean ====
section
/-! DEFINITION. exec: one arm per instruction, each one call of its meaning. -/

namespace Sys2Proof.Machine

/-- What a decoded instruction does, on the state that FETCH left (spec/42_step.md R83). -/
def exec (i : Instr) (s : State) : Host.Outcome State Fault Refusal :=
  match i with
  | .decodeR rd funct3 rs1 rs2 funct7 => Sys2Proof.Machine.execDecodeR rd funct3 rs1 rs2 funct7 s
  | .decodeI rd funct3 rs1 raw => Sys2Proof.Machine.execDecodeI rd funct3 rs1 raw s
  | .decodeS funct3 rs1 rs2 raw => Sys2Proof.Machine.execDecodeS funct3 rs1 rs2 raw s
  | .decodeB funct3 rs1 rs2 raw => Sys2Proof.Machine.execDecodeB funct3 rs1 rs2 raw s
  | .decodeU rd raw => Sys2Proof.Machine.execDecodeU rd raw s
  | .decodeJ rd raw => Sys2Proof.Machine.execDecodeJ rd raw s

end Sys2Proof.Machine
end

