-- ==== Sys2Proof/Machine/Sequencer.lean ====
section
/-! DEFINITION. The body of a step (spec/42_step.md R83 to R87): FETCH, then, if it succeeds, DECODE of the fetched word. -/

namespace Sys2Proof.Machine

/-- One step. While a fault is held CORE takes no step (R84): the outcome is that fault, "the recorded error" that is the
result of a faulted run (R90). A fetch error ends the step with `fault` set and the pc unchanged (R85); a decode error sets
`fault` after the pc has advanced (R86); otherwise the decoded instruction runs on the state FETCH left (R87). -/
def stepBody (s : State) : Host.Outcome State Fault Refusal :=
  match s.fault with
  | some e => .fault e
  | none =>
    match fetch s with
    | .error e => .next (raise e s)
    | .ok (w, s') =>
      match decode w with
      | .error e => .next (raise (faultOfDecode s' e) s')
      | .ok i => exec i s'

end Sys2Proof.Machine
end

