-- ==== Sys2Proof/Machine/Step.lean ====
section
/-! DEFINITION. The step the host calls, and the placing of an instruction where the step fetches it. -/

namespace Sys2Proof.Machine

/-- One step: one `fetch_req` (spec/10_state.md R29, spec/42_step.md R83). -/
def step (s : State) : Host.Outcome State Fault Refusal := stepBody s

/-- `s` with the table word stored where the next step fetches. The load that the spec leaves to the host (R38, R111) is what
this stands for (notes/assumptions/12.md). -/
def State.withFetchWord (s : State) (nbits w : Nat) : State := placeWord s (tableWord nbits w)

end Sys2Proof.Machine
end

