-- ==== Sys2Proof/Machine/Flags.lean ====
section
/-! DEFINITION. CORE has no flags or condition codes (spec/10_state.md R19), so no flag is computed anywhere. What CORE shows
of its status are the interface codes of spec/60_exceptions.md R95. -/

namespace Sys2Proof.Machine

/-- The numeric code of an error (R95); 0 is kept for "none". -/
def Fault.code : Fault → BitVec 2
  | .unsupportedOpcode _ _ => 1#2
  | .outOfBounds _ => 2#2
  | .misalignedFetch _ => 3#2

/-- The code of the fault status (R95). -/
def faultCode : Option Fault → BitVec 2
  | none => 0#2
  | some e => e.code

/-- The format tag `fmt` (R95); 6 and 7 are never produced. -/
def formatTag : Format → BitVec 3
  | .r => 0#3
  | .i => 1#3
  | .s => 2#3
  | .b => 3#3
  | .u => 4#3
  | .j => 5#3

end Sys2Proof.Machine
end

