-- ==== Sys2Proof/Machine/Ports.lean ====
section
/-! DEFINITION. The output ports of spec/10_state.md R29 after a step, as a view of State. A port the spec gives no value at that
moment is `none`: "an unspecified value", which "a model must not read" (R29; notes/assumptions/10.md). -/

namespace Sys2Proof.Machine

/-- What the last step returned (R83): `Decoded(a, r, d)` or `Faulted(e)`. -/
inductive StepResult where
  | decoded (x : Delivery)
  | faulted (e : Fault)
  deriving DecidableEq, Repr

/-- The result of the last step; `none` where no step has been taken since reset. -/
def lastResult (s : State) : Option StepResult :=
  match s.fault with
  | some e => some (.faulted e)
  | none => s.delivered.getLast?.map .decoded

/-- The output ports. -/
structure Ports where
  pcQ : Word
  raw : Option Word
  fetchErr : Option (BitVec 2)
  fetchErrAddr : Option Word
  fmt : Option (BitVec 3)
  opcode : Option Opcode
  rd : Option RegIdx
  rs1 : Option RegIdx
  rs2 : Option RegIdx
  funct3 : Option Funct3
  funct7 : Option Funct7
  imm : Option Word
  decErr : Option (BitVec 1)
  decErrOpcode : Option Opcode
  deriving DecidableEq, Repr

/-- The ports before any step: only `pc_q` shows a specified value. -/
def idlePorts (s : State) : Ports where
  pcQ := s.pc
  raw := none
  fetchErr := none
  fetchErrAddr := none
  fmt := none
  opcode := none
  rd := none
  rs1 := none
  rs2 := none
  funct3 := none
  funct7 := none
  imm := none
  decErr := none
  decErrOpcode := none

/-- The ports after the last step. The fetch ports show the error code and the address of a failed fetch, or the word; the
decoder's ports show the fields R25 lists for the format, or the UnsupportedOpcode indication (R95). DESIGN CHOICE
(notes/assumptions/10.md): after a failed fetch `raw` and every decoder port, `dec_err` included, are `none`; without one
`fetch_err_addr` is, and without a decode error `dec_err_opcode` is. -/
def ports (s : State) : Ports :=
  match lastResult s with
  | none => idlePorts s
  | some (.decoded x) =>
    { idlePorts s with
      raw := some x.raw
      fetchErr := some (faultCode none)
      fmt := some (formatTag x.value.format)
      opcode := some x.value.opcode
      rd := x.value.rd?
      rs1 := x.value.rs1?
      rs2 := x.value.rs2?
      funct3 := x.value.funct3?
      funct7 := x.value.funct7?
      imm := x.value.imm?
      decErr := some 0#1 }
  | some (.faulted (.unsupportedOpcode op _)) =>
    { idlePorts s with
      raw := some s.raw
      fetchErr := some (faultCode none)
      decErr := some 1#1
      decErrOpcode := some op }
  | some (.faulted (.outOfBounds a)) =>
    { idlePorts s with
      fetchErr := some (Fault.outOfBounds a).code
      fetchErrAddr := some a }
  | some (.faulted (.misalignedFetch a)) =>
    { idlePorts s with
      fetchErr := some (Fault.misalignedFetch a).code
      fetchErrAddr := some a }

end Sys2Proof.Machine
end

