-- ==== Sys2Proof/Machine/Structure.lean ====
section
/-! DEFINITION. The reference structure of spec/41_decode.md R82: the Decoder as combinational hardware. Slice extractors at the
shared positions, five immediate assemblers side by side, a sign-extension multiplexer per assembler (none for U), six opcode
comparators, a 5-way immediate multiplexer, and `dec_err` when no comparator fires. It is a second definition of the Decoder:
that it computes what `decodeWord` computes is a statement to prove. -/

namespace Sys2Proof.Machine

/-- The six equality comparators. -/
structure Match where
  isR : Bool
  isI : Bool
  isS : Bool
  isB : Bool
  isU : Bool
  isJ : Bool
  deriving DecidableEq, Repr

/-- The opcode comparator. -/
def comparators (op : Opcode) : Match where
  isR := op == 0x33#7
  isI := op == 0x13#7
  isS := op == 0x23#7
  isB := op == 0x63#7
  isU := op == 0x37#7
  isJ := op == 0x6F#7

/-- The multiplexer of R60: bits 31..w select 0 or the sign bit. -/
def signMux (w : Nat) (raw : BitVec w) : Word :=
  raw.setWidth 32 ||| ((BitVec.fill 32 raw.msb) <<< w)

/-- The decoder's output ports. One that the spec leaves unspecified for the word is `none`: a field R25 does not list for the
format, every field while `dec_err` is 1, `opcode` included (R29, decision D21), and, which is the model's own reading
(DESIGN CHOICE, notes/assumptions/10.md), `dec_err_opcode` while `dec_err` is 0. -/
structure Wires where
  fmt : Option (BitVec 3)
  opcode : Option Opcode
  rd : Option RegIdx
  rs1 : Option RegIdx
  rs2 : Option RegIdx
  funct3 : Option Funct3
  funct7 : Option Funct7
  imm : Option Word
  decErr : Bool
  decErrOpcode : Option Opcode
  deriving DecidableEq, Repr

/-- An output that carries `v` where its format lines select it, and an unspecified value elsewhere. -/
def leg {α : Type} (selected : Bool) (v : α) : Option α := if selected then some v else none

/-- The combinational function of the word. -/
def wires (w : Word) : Wires :=
  let m := comparators (opcodeOf w)
  let hit := m.isR || m.isI || m.isS || m.isB || m.isU || m.isJ
  { fmt :=
      if m.isR then some 0#3 else if m.isI then some 1#3 else if m.isS then some 2#3
      else if m.isB then some 3#3 else if m.isU then some 4#3 else if m.isJ then some 5#3 else none
    opcode := leg hit (opcodeOf w)
    rd := leg (m.isR || m.isI || m.isU || m.isJ) (fieldRd w)
    rs1 := leg (m.isR || m.isI || m.isS || m.isB) (fieldRs1 w)
    rs2 := leg (m.isR || m.isS || m.isB) (fieldRs2 w)
    funct3 := leg (m.isR || m.isI || m.isS || m.isB) (fieldFunct3 w)
    funct7 := leg m.isR (fieldFunct7 w)
    imm :=
      if m.isI then some (signMux 12 (rawI w)) else if m.isS then some (signMux 12 (rawS w))
      else if m.isB then some (signMux 13 (rawB w)) else if m.isU then some (rawU w)
      else if m.isJ then some (signMux 21 (rawJ w)) else none
    decErr := !hit
    decErrOpcode := leg (!hit) (opcodeOf w) }

/-- The ports show the decoded value: the fields R25 lists for its variant, and no other. -/
def Wires.shows (x : Wires) (d : DecodedInstruction) : Prop :=
  x.decErr = false ∧ x.decErrOpcode = none ∧ x.fmt = some (formatTag d.format) ∧ x.opcode = some d.opcode ∧
  x.rd = d.rd? ∧ x.rs1 = d.rs1? ∧ x.rs2 = d.rs2? ∧ x.funct3 = d.funct3? ∧ x.funct7 = d.funct7? ∧ x.imm = d.imm?

/-- The ports show UnsupportedOpcode: `dec_err` and the opcode the error carries, and no field. -/
def Wires.showsError (x : Wires) (op : Opcode) : Prop :=
  x.decErr = true ∧ x.decErrOpcode = some op ∧ x.fmt = none ∧ x.opcode = none ∧
  x.rd = none ∧ x.rs1 = none ∧ x.rs2 = none ∧ x.funct3 = none ∧ x.funct7 = none ∧ x.imm = none

end Sys2Proof.Machine
end

