-- ==== Sys2Proof/Machine/Environment.lean ====
section
/-! DEFINITION. The environment (spec/42_step.md R88): the moves the out-of-scope execution stage and host may make between two
steps, sequences of them, and several instances side by side (spec/60_exceptions.md R104). -/

namespace Sys2Proof.Machine

/-- One environment move. R88 lists (a) to (d). `writeReg` is not in that list: the register file is not CORE state, but it is in
the context the execution stage owns and may write (R14, R18, "WHAT THIS DEFINITION DOES NOT SAY" in spec/42_step.md;
notes/assumptions/11.md, DEDUCED). -/
inductive Move where
  /-- (a) Write any 32-bit value to `pc`, through `pc_wr_en`/`pc_wr_data`. -/
  | writePc (v : Word)
  /-- (b) Write any byte to an address in 0..MEM_SIZE-1. -/
  | writeByte (a : Nat) (b : Byte)
  /-- Write a register of the context. -/
  | writeReg (i : RegIdx) (v : Word)
  /-- (c) Request the next step (`fetch_req`). -/
  | fetchReq
  /-- (d) Reset. The register file's contents afterwards are unspecified (R109), so the move carries them. -/
  | reset (regs : Vector Word 32)
  deriving DecidableEq, Repr

/-- The state after one request: the step's next state, and the same state where CORE takes no step ("a `fetch_req` is ignored",
R84). -/
def request (s : State) : State :=
  match step s with
  | .next t => t
  | .fault _ => s
  | .refused _ => s

/-- The state after a move; `none` where the environment cannot make it (a byte outside memory, R88(b)). No move changes the
parameters, and only reset clears `fault` (R88). A reset constructs CORE again with its own parameters (R105). The pc, memory and
register writes are admitted, and take effect, while a fault is held too: R84 says "The state is stuck until reset" and R88 puts no
condition on `fault`, so this is the model's choice (notes/assumptions/17.md, DESIGN CHOICE). -/
def applyMove (m : Move) (s : State) : Option State :=
  match m with
  | .writePc v => some { s with pc := v }
  | .writeByte a b => if a < s.params.memSize then some (writeByte s a b) else none
  | .writeReg i v => some (writeReg s i v)
  | .fetchReq => some (request s)
  | .reset regs => some (State.construct s.params regs)

/-- The state after a sequence of moves; `none` where one of them cannot be made. -/
def applyMoves : List Move → State → Option State
  | [], s => some s
  | m :: ms, s => (applyMove m s).bind (applyMoves ms)

/-- A move on instance `k` of several: each owns an independent state (R104); `none` where there is no such instance. -/
def applyMoveAt (k : Nat) (m : Move) (cores : List State) : Option (List State) :=
  (cores[k]?.bind (applyMove m)).map fun t => cores.set k t

end Sys2Proof.Machine
end

