-- ==== Sys2Proof/Safety.lean ====
section
/-! DEFINITION. The terms the statements use: when a fetch is admitted, the invariant of the machine, and how a run ends
(spec/42_step.md R90). -/

namespace Sys2Proof

/-- Parameters as R8 and R9 allow them: MEM_SIZE at most 2^32, and MEM_INIT a memory image in canonical form inside it. -/
structure Params.Ok (p : Params) : Prop where
  size : p.memSize ≤ 2 ^ 32
  initWf : p.memInit.wf = true
  initWithin : p.memInit.within p.memSize = true

end Sys2Proof

namespace Sys2Proof.Machine

/-- The fetch invariant the environment must meet (spec/70_reset_and_hazards.md R111): the setting of FETCH_MISALIGNED admits the
pc's alignment (R67), and the whole word lies inside memory (R66). -/
def Fetchable (s : State) : Prop :=
  (s.params.fetchMisaligned = .fault → s.pc.toNat % 4 = 0) ∧ s.pc.toNat + 3 < s.params.memSize

/-- The recorded error is one that its condition in R91 allows. -/
def Fault.Justified (p : Params) : Fault → Prop
  | .unsupportedOpcode op _ => formatOf op = none
  | .outOfBounds a => p.memSize ≤ a.toNat + 3
  | .misalignedFetch a => p.fetchMisaligned = .fault ∧ a.toNat % 4 ≠ 0

/-- A delivery is one that R87 allows: the value is what Decode gives for the raw word (R71), and its address is one a fetch
succeeds at (R66, R67). -/
def Delivery.Sound (p : Params) (x : Delivery) : Prop :=
  decodeWord x.raw = .ok x.value ∧ x.addr.toNat + 3 < p.memSize ∧
  (p.fetchMisaligned = .fault → x.addr.toNat % 4 = 0)

/-- The invariant of the machine: it holds after every construction, and every step and every environment move keeps it. -/
structure Inv (s : State) : Prop where
  params : Params.Ok s.params
  memWf : s.mem.wf = true
  memWithin : s.mem.within s.params.memSize = true
  fault : ∀ e, s.fault = some e → e.Justified s.params
  delivered : ∀ x ∈ s.delivered, x.Sound s.params

/-- `n` steps with no environment move between them, stopping where a step stops (R89). -/
def runSteps : Nat → State → Host.Outcome State Fault Refusal
  | 0, s => .next s
  | n + 1, s =>
    match step s with
    | .next t => runSteps n t
    | .fault e => .fault e
    | .refused r => .refused r

/-- The two ends of a run (R90). -/
inductive RunEnd where
  /-- (a) FAULTED: a bad end, "and the recorded error is its result". -/
  | faulted (e : Fault)
  /-- (b) RELEASED: the environment requests no further step; the end state is the pc with the sequence delivered so far. -/
  | released (pc : Word) (delivered : List Delivery)
  deriving DecidableEq, Repr

/-- How a run that stands at `s` and makes no further request has ended. -/
def runEnd (s : State) : RunEnd :=
  match s.fault with
  | some e => .faulted e
  | none => .released s.pc s.delivered

end Sys2Proof.Machine
end

