-- ==== Sys2Proof/Certificates/Slice0/Obligations.lean ====
section
/-! DEFINITION. The statements about CORE. Each docstring names the rule of spec/ it formalises. A statement whose rule the spec
marks as its own decision or derivation says so and rests on it as a 'derived' statement. -/

open Sys2Proof Sys2Proof.Machine

/-! ## Encoding and decoding -/

/-- spec/95_test_vectors.md DV-R3, DV-I1 (E5 as corrected by C1), DV-S7, DV-B1, DV-U5, DV-J1, DV-X3: words written out in the spec
decode to the values it gives. -/
def Obligations.SpecVectorsDecodeAsWritten : Prop :=
  decodeWord 0x405282B3#32 = .ok (.r 0x33#7 5#5 5#5 5#5 0#3 32#7) ∧
  decodeWord 0x00A00093#32 = .ok (.i 0x13#7 1#5 0#5 0#3 10#32) ∧
  decodeWord 0xFE512E23#32 = .ok (.s 0x23#7 2#5 5#5 2#3 0xFFFFFFFC#32) ∧
  decodeWord 0x00208463#32 = .ok (.b 0x63#7 1#5 2#5 0#3 8#32) ∧
  decodeWord 0x12345FB7#32 = .ok (.u 0x37#7 31#5 0x12345000#32) ∧
  decodeWord 0x008000EF#32 = .ok (.j 0x6F#7 1#5 8#32) ∧
  decodeWord 0x0000A083#32 = .error (.unsupportedOpcode 0x03#7)

/-- spec/41_decode.md R72 (DecodeR): every word with opcode 0x33 decodes to the R instruction whose fields are its slices, and
that instruction delivers the R value with those fields. There is no exception and no other effect. That the value is delivered
into a list in State, for the address and word in the latches `fetchAddr` and `raw`, is the model's choice
(notes/assumptions/8.md, 9.md). -/
def Obligations.DecodeRDeliversTheRegisterFields : Prop :=
  ∀ (w : Word) (s : State), w.extractLsb' 0 7 = 0x33#7 →
    decode w = .ok (.decodeR (w.extractLsb' 7 5) (w.extractLsb' 12 3) (w.extractLsb' 15 5) (w.extractLsb' 20 5)
      (w.extractLsb' 25 7)) ∧
    exec (.decodeR (w.extractLsb' 7 5) (w.extractLsb' 12 3) (w.extractLsb' 15 5) (w.extractLsb' 20 5)
      (w.extractLsb' 25 7)) s
      = .next { s with delivered := s.delivered ++ [⟨s.fetchAddr, s.raw,
          .r (w.extractLsb' 0 7) (w.extractLsb' 7 5) (w.extractLsb' 15 5) (w.extractLsb' 20 5) (w.extractLsb' 12 3)
            (w.extractLsb' 25 7)⟩] }

/-- spec/41_decode.md R73 (DecodeI): every word with opcode 0x13 decodes to the I instruction of its slices, and that instruction
delivers the I value whose immediate is `sext_12(word[31:20])`. That the value is delivered into a list in State, for the address
and word in the latches `fetchAddr` and `raw`, is the model's choice (notes/assumptions/8.md, 9.md), and so is the split into an
instruction with a raw immediate and a meaning that applies the immediate stage (13.md). -/
def Obligations.DecodeIDeliversTheSignExtendedImmediate : Prop :=
  ∀ (w : Word) (s : State), w.extractLsb' 0 7 = 0x13#7 →
    decode w = .ok (.decodeI (w.extractLsb' 7 5) (w.extractLsb' 12 3) (w.extractLsb' 15 5) (w.extractLsb' 20 12)) ∧
    exec (.decodeI (w.extractLsb' 7 5) (w.extractLsb' 12 3) (w.extractLsb' 15 5) (w.extractLsb' 20 12)) s
      = .next { s with delivered := s.delivered ++ [⟨s.fetchAddr, s.raw,
          .i (w.extractLsb' 0 7) (w.extractLsb' 7 5) (w.extractLsb' 15 5) (w.extractLsb' 12 3)
            ((w.extractLsb' 20 12).signExtend 32)⟩] }

/-- spec/41_decode.md R74 (DecodeS): every word with opcode 0x23 decodes to the S instruction with raw immediate `{word[31:25],
word[11:7]}`, and that instruction delivers the S value, which has no rd, with `sext_12` of it. That the value is delivered into a
list in State, for the address and word in the latches `fetchAddr` and `raw`, is the model's choice (notes/assumptions/8.md,
9.md), and so is the split into an instruction with a raw immediate and a meaning that applies the immediate stage (13.md). -/
def Obligations.DecodeSDeliversTheSplitImmediate : Prop :=
  ∀ (w : Word) (s : State), w.extractLsb' 0 7 = 0x23#7 →
    decode w = .ok (.decodeS (w.extractLsb' 12 3) (w.extractLsb' 15 5) (w.extractLsb' 20 5)
      (w.extractLsb' 25 7 ++ w.extractLsb' 7 5)) ∧
    exec (.decodeS (w.extractLsb' 12 3) (w.extractLsb' 15 5) (w.extractLsb' 20 5)
      (w.extractLsb' 25 7 ++ w.extractLsb' 7 5)) s
      = .next { s with delivered := s.delivered ++ [⟨s.fetchAddr, s.raw,
          .s (w.extractLsb' 0 7) (w.extractLsb' 15 5) (w.extractLsb' 20 5) (w.extractLsb' 12 3)
            ((w.extractLsb' 25 7 ++ w.extractLsb' 7 5).signExtend 32)⟩] }

/-- spec/41_decode.md R75 (DecodeB): every word with opcode 0x63 decodes to the B instruction with raw immediate `{word[31],
word[7], word[30:25], word[11:8], 0b0}`, and that instruction delivers the B value with `sext_13` of it; the pc is not added and
not written. That the value is delivered into a list in State, for the address and word in the latches `fetchAddr` and `raw`, is
the model's choice (notes/assumptions/8.md, 9.md), and so is the split into an instruction with a raw immediate and a meaning that
applies the immediate stage (13.md). -/
def Obligations.DecodeBDeliversTheBranchOffset : Prop :=
  ∀ (w : Word) (s : State), w.extractLsb' 0 7 = 0x63#7 →
    decode w = .ok (.decodeB (w.extractLsb' 12 3) (w.extractLsb' 15 5) (w.extractLsb' 20 5)
      (w.extractLsb' 31 1 ++ w.extractLsb' 7 1 ++ w.extractLsb' 25 6 ++ w.extractLsb' 8 4 ++ 0#1)) ∧
    exec (.decodeB (w.extractLsb' 12 3) (w.extractLsb' 15 5) (w.extractLsb' 20 5)
      (w.extractLsb' 31 1 ++ w.extractLsb' 7 1 ++ w.extractLsb' 25 6 ++ w.extractLsb' 8 4 ++ 0#1)) s
      = .next { s with delivered := s.delivered ++ [⟨s.fetchAddr, s.raw,
          .b (w.extractLsb' 0 7) (w.extractLsb' 15 5) (w.extractLsb' 20 5) (w.extractLsb' 12 3)
            ((w.extractLsb' 31 1 ++ w.extractLsb' 7 1 ++ w.extractLsb' 25 6 ++ w.extractLsb' 8 4 ++ 0#1).signExtend 32)⟩] }

/-- spec/41_decode.md R76 (DecodeU): every word with opcode 0x37 decodes to the U instruction whose immediate is `word &
0xFFFFF000`, and that instruction delivers the U value with that immediate, not shifted and not sign-extended. That the value is
delivered into a list in State, for the address and word in the latches `fetchAddr` and `raw`, is the model's choice
(notes/assumptions/8.md, 9.md), and so is the split into an instruction with a raw immediate and a meaning that applies the
immediate stage (13.md). -/
def Obligations.DecodeUDeliversTheUpperImmediate : Prop :=
  ∀ (w : Word) (s : State), w.extractLsb' 0 7 = 0x37#7 →
    decode w = .ok (.decodeU (w.extractLsb' 7 5) (w &&& 0xFFFFF000#32)) ∧
    exec (.decodeU (w.extractLsb' 7 5) (w &&& 0xFFFFF000#32)) s
      = .next { s with delivered := s.delivered ++ [⟨s.fetchAddr, s.raw,
          .u (w.extractLsb' 0 7) (w.extractLsb' 7 5) (w.extractLsb' 12 20 ++ 0#12)⟩] }

/-- spec/41_decode.md R77 (DecodeJ): every word with opcode 0x6F decodes to the J instruction with raw immediate `{word[31],
word[19:12], word[20], word[30:21], 0b0}`, and that instruction delivers the J value with `sext_21` of it; no link register is
written and no target is computed. That the value is delivered into a list in State, for the address and word in the latches
`fetchAddr` and `raw`, is the model's choice (notes/assumptions/8.md, 9.md), and so is the split into an instruction with a raw
immediate and a meaning that applies the immediate stage (13.md). -/
def Obligations.DecodeJDeliversTheJumpOffset : Prop :=
  ∀ (w : Word) (s : State), w.extractLsb' 0 7 = 0x6F#7 →
    decode w = .ok (.decodeJ (w.extractLsb' 7 5)
      (w.extractLsb' 31 1 ++ w.extractLsb' 12 8 ++ w.extractLsb' 20 1 ++ w.extractLsb' 21 10 ++ 0#1)) ∧
    exec (.decodeJ (w.extractLsb' 7 5)
      (w.extractLsb' 31 1 ++ w.extractLsb' 12 8 ++ w.extractLsb' 20 1 ++ w.extractLsb' 21 10 ++ 0#1)) s
      = .next { s with delivered := s.delivered ++ [⟨s.fetchAddr, s.raw,
          .j (w.extractLsb' 0 7) (w.extractLsb' 7 5)
            ((w.extractLsb' 31 1 ++ w.extractLsb' 12 8 ++ w.extractLsb' 20 1 ++ w.extractLsb' 21 10 ++ 0#1).signExtend 32)⟩] }

/-- R72 to R77: what DecodeR, DecodeI, DecodeS, DecodeB, DecodeU and DecodeJ return for a word of their opcode, as functions of the word
alone: every field is its slice, the I, S, B and J immediates are `sext_12`, `sext_12`, `sext_13` and `sext_21` of the assembled raw
value, and the U immediate is `word & 0xFFFFF000`. -/
def Obligations.FormatDecodersReturnTheirVariants : Prop :=
  ∀ w : Word,
    (w.extractLsb' 0 7 = 0x33#7 → decodeWord w = .ok
      (.r (w.extractLsb' 0 7) (w.extractLsb' 7 5) (w.extractLsb' 15 5) (w.extractLsb' 20 5) (w.extractLsb' 12 3)
        (w.extractLsb' 25 7))) ∧
    (w.extractLsb' 0 7 = 0x13#7 → decodeWord w = .ok
      (.i (w.extractLsb' 0 7) (w.extractLsb' 7 5) (w.extractLsb' 15 5) (w.extractLsb' 12 3)
        ((w.extractLsb' 20 12).signExtend 32))) ∧
    (w.extractLsb' 0 7 = 0x23#7 → decodeWord w = .ok
      (.s (w.extractLsb' 0 7) (w.extractLsb' 15 5) (w.extractLsb' 20 5) (w.extractLsb' 12 3)
        ((w.extractLsb' 25 7 ++ w.extractLsb' 7 5).signExtend 32))) ∧
    (w.extractLsb' 0 7 = 0x63#7 → decodeWord w = .ok
      (.b (w.extractLsb' 0 7) (w.extractLsb' 15 5) (w.extractLsb' 20 5) (w.extractLsb' 12 3)
        ((w.extractLsb' 31 1 ++ w.extractLsb' 7 1 ++ w.extractLsb' 25 6 ++ w.extractLsb' 8 4 ++ 0#1).signExtend 32))) ∧
    (w.extractLsb' 0 7 = 0x37#7 → decodeWord w = .ok
      (.u (w.extractLsb' 0 7) (w.extractLsb' 7 5) (w &&& 0xFFFFF000#32))) ∧
    (w.extractLsb' 0 7 = 0x6F#7 → decodeWord w = .ok
      (.j (w.extractLsb' 0 7) (w.extractLsb' 7 5)
        ((w.extractLsb' 31 1 ++ w.extractLsb' 12 8 ++ w.extractLsb' 20 1 ++ w.extractLsb' 21 10 ++ 0#1).signExtend 32)))

/-- Every instruction completes, for every operand and in every state: exec answers the state in which the variant has been
delivered (spec/41_decode.md section 2, "Exceptions: none"; spec/10_state.md section 5). That the value is delivered into a list
in State, for the address and word in the latches `fetchAddr` and `raw`, is the model's choice (notes/assumptions/8.md, 9.md), and
so is the split into an instruction with a raw immediate and a meaning that applies the immediate stage (13.md). -/
def Obligations.EveryInstructionCompletes : Prop :=
  (∀ rd f3 rs1 rs2 f7 (s : State), exec (.decodeR rd f3 rs1 rs2 f7) s
    = .next { s with delivered := s.delivered ++ [⟨s.fetchAddr, s.raw, .r 0x33#7 rd rs1 rs2 f3 f7⟩] }) ∧
  (∀ rd f3 rs1 raw (s : State), exec (.decodeI rd f3 rs1 raw) s
    = .next { s with delivered := s.delivered ++ [⟨s.fetchAddr, s.raw, .i 0x13#7 rd rs1 f3 (raw.signExtend 32)⟩] }) ∧
  (∀ f3 rs1 rs2 raw (s : State), exec (.decodeS f3 rs1 rs2 raw) s
    = .next { s with delivered := s.delivered ++ [⟨s.fetchAddr, s.raw, .s 0x23#7 rs1 rs2 f3 (raw.signExtend 32)⟩] }) ∧
  (∀ f3 rs1 rs2 raw (s : State), exec (.decodeB f3 rs1 rs2 raw) s
    = .next { s with delivered := s.delivered ++ [⟨s.fetchAddr, s.raw, .b 0x63#7 rs1 rs2 f3 (raw.signExtend 32)⟩] }) ∧
  (∀ rd raw (s : State), exec (.decodeU rd raw) s
    = .next { s with delivered := s.delivered ++ [⟨s.fetchAddr, s.raw, .u 0x37#7 rd raw⟩] }) ∧
  (∀ rd raw (s : State), exec (.decodeJ rd raw) s
    = .next { s with delivered := s.delivered ++ [⟨s.fetchAddr, s.raw, .j 0x6F#7 rd (raw.signExtend 32)⟩] })

/-- The frame of every instruction (spec/41_decode.md, before section 1: "No decoder rule reads `pc`, memory or registers, and
none writes any state"): each answers a next state with the pc, the fault status, every register, every byte of memory, the
parameters and the fetch port as before, and exactly one more delivery, made for the address and word the fetch left. That the
value is delivered into a list in State, for the address and word in the latches `fetchAddr` and `raw`, is the model's choice
(notes/assumptions/8.md, 9.md). -/
def Obligations.FormatDecodersWriteOnlyTheDelivery : Prop :=
  ∀ (i : Instr) (s : State), ∃ t d, exec i s = .next t ∧
    t.pc = s.pc ∧ t.fault = s.fault ∧ (∀ r, readReg t r = readReg s r) ∧ (∀ a, memByte t a = memByte s a) ∧
    t.params = s.params ∧ t.fetchAddr = s.fetchAddr ∧ t.raw = s.raw ∧
    t.delivered = s.delivered ++ [⟨s.fetchAddr, s.raw, d⟩]

/-- R46 and R47: the closed opcode map, by exact match on `word[6:0]` and on nothing else. -/
def Obligations.OnlyTheOpcodeSelectsTheFormat : Prop :=
  (∀ w : Word, (decodeWord w).map DecodedInstruction.format =
    if w.extractLsb' 0 7 = 0x33#7 then .ok .r
    else if w.extractLsb' 0 7 = 0x13#7 then .ok .i
    else if w.extractLsb' 0 7 = 0x23#7 then .ok .s
    else if w.extractLsb' 0 7 = 0x63#7 then .ok .b
    else if w.extractLsb' 0 7 = 0x37#7 then .ok .u
    else if w.extractLsb' 0 7 = 0x6F#7 then .ok .j
    else .error (.unsupportedOpcode (w.extractLsb' 0 7))) ∧
  (∀ w v : Word, w &&& 0x7F#32 = v &&& 0x7F#32 →
    (decodeWord w).map DecodedInstruction.format = (decodeWord v).map DecodedInstruction.format)

/-- R78: a word outside the six opcodes raises UnsupportedOpcode with its own opcode and no other part of the word, and so do the
rule's words. -/
def Obligations.UnrecognisedOpcodeIsCarriedExactly : Prop :=
  (∀ w : Word, w.extractLsb' 0 7 ∉ [0x33#7, 0x13#7, 0x23#7, 0x63#7, 0x37#7, 0x6F#7] →
    decodeWord w = .error (.unsupportedOpcode (w.extractLsb' 0 7))) ∧
  decodeWord 0x00000000#32 = .error (.unsupportedOpcode 0x00#7) ∧
  decodeWord 0xFFFFFFFF#32 = .error (.unsupportedOpcode 0x7F#7) ∧
  decodeWord 0x0000A083#32 = .error (.unsupportedOpcode 0x03#7) ∧
  (∀ x : BitVec 25, ∀ op ∈ [0x03#7, 0x67#7, 0x17#7, 0x73#7, 0x0F#7],
    decodeWord (x ++ op : BitVec 32) = .error (.unsupportedOpcode op))

/-- spec/30_encoding.md R61, which the spec derives from R47: every word with `word[1:0] ≠ 0b11` is illegal, and 122 of the 128
opcode values are. -/
def Obligations.IllegalEncodingsAreCounted : Prop :=
  (∀ w : Word, w.extractLsb' 0 2 ≠ 0b11#2 → decodeWord w = .error (.unsupportedOpcode (w.extractLsb' 0 7))) ∧
  ((List.range 128).filter fun n => (formatOf (BitVec.ofNat 7 n)).isNone).length = 122

/-- R60: the sign-extension stage at each logical width: the mask form, its equality with two's complement extension, the sign law,
and that U bypasses it. -/
def Obligations.SignExtensionStageIsTwosComplement : Prop :=
  (∀ raw : BitVec 12, signext 12 raw = (if raw.getLsbD 11 then raw.zeroExtend 32 ||| (0xFFFFFFFF#32 <<< 12) else raw.zeroExtend 32) ∧
    signext 12 raw = raw.signExtend 32 ∧ ((signext 12 raw).toInt < 0 ↔ raw.getLsbD 11 = true)) ∧
  (∀ raw : BitVec 13, signext 13 raw = (if raw.getLsbD 12 then raw.zeroExtend 32 ||| (0xFFFFFFFF#32 <<< 13) else raw.zeroExtend 32) ∧
    signext 13 raw = raw.signExtend 32 ∧ ((signext 13 raw).toInt < 0 ↔ raw.getLsbD 12 = true)) ∧
  (∀ raw : BitVec 21, signext 21 raw = (if raw.getLsbD 20 then raw.zeroExtend 32 ||| (0xFFFFFFFF#32 <<< 21) else raw.zeroExtend 32) ∧
    signext 21 raw = raw.signExtend 32 ∧ ((signext 21 raw).toInt < 0 ↔ raw.getLsbD 20 = true)) ∧
  (∀ raw : Word, immU raw = raw)

/-- R81: (a) each recognised opcode gives its variant, which carries `word[6:0]`; (b) an I, S, B or J immediate is negative exactly
when the raw immediate's top bit is 1; (c) bit 0 of a B or J immediate is 0; (d) a U immediate is the word's upper 20 bits over
twelve zeros. -/
def Obligations.DecodedImmediateLaws : Prop :=
  (∀ (w : Word) (f : Format), w.extractLsb' 0 7 = f.opcode →
    ∃ d, decodeWord w = .ok d ∧ d.format = f ∧ d.opcode = w.extractLsb' 0 7) ∧
  (∀ (w : Word) (d : DecodedInstruction) (imm : Word), decodeWord w = .ok d → d.imm? = some imm →
    match d.format with
    | .r => False
    | .i => imm.toInt < 0 ↔ (rawI w).getLsbD 11 = true
    | .s => imm.toInt < 0 ↔ (rawS w).getLsbD 11 = true
    | .b => (imm.toInt < 0 ↔ (rawB w).getLsbD 12 = true) ∧ imm.getLsbD 0 = false
    | .u => imm.extractLsb' 0 12 = 0#12 ∧ imm.extractLsb' 12 20 = w.extractLsb' 12 20
    | .j => (imm.toInt < 0 ↔ (rawJ w).getLsbD 20 = true) ∧ imm.getLsbD 0 = false)

/-- R80: every field of a decoded value is the masked slice at its position, so it lies in the field's range. -/
def Obligations.DecodedFieldsAreMaskedSlices : Prop :=
  ∀ (w : Word) (d : DecodedInstruction), decodeWord w = .ok d →
    (∀ v, d.rd? = some v → v = w.extractLsb' 7 5 ∧ v.toNat ≤ 31) ∧
    (∀ v, d.rs1? = some v → v = w.extractLsb' 15 5 ∧ v.toNat ≤ 31) ∧
    (∀ v, d.rs2? = some v → v = w.extractLsb' 20 5 ∧ v.toNat ≤ 31) ∧
    (∀ v, d.funct3? = some v → v = w.extractLsb' 12 3 ∧ v.toNat ≤ 7) ∧
    (∀ v, d.funct7? = some v → v = w.extractLsb' 25 7 ∧ v.toNat ≤ 127) ∧
    d.opcode = w.extractLsb' 0 7 ∧ d.opcode.toNat ≤ 127

/-- The ranges of spec/30_encoding.md R55 to R59, which the spec derives: what an immediate means as an integer (R28) lies in its
format's range; B and J immediates are even and U immediates are multiples of 4096. -/
def Obligations.ImmediateMeaningsStayInRange : Prop :=
  ∀ (w : Word) (d : DecodedInstruction) (n : Int), decodeWord w = .ok d → d.immMeaning? = some n →
    match d.format with
    | .r => False
    | .i => -2048 ≤ n ∧ n ≤ 2047
    | .s => -2048 ≤ n ∧ n ≤ 2047
    | .b => -4096 ≤ n ∧ n ≤ 4094 ∧ n % 2 = 0
    | .u => 0 ≤ n ∧ n ≤ 4294963200 ∧ n % 4096 = 0
    | .j => -1048576 ≤ n ∧ n ≤ 1048574 ∧ n % 2 = 0

/-- The encoder puts each field of each format at the bits its table in spec/30_encoding.md (R48 to R53) gives, and the immediate
bits a format does not encode decode as 0. The encoder is the model's, and an instruction's raw immediate its form of the
immediate (notes/assumptions/13.md). -/
def Obligations.EncoderFollowsTheFormatTables : Prop :=
  (∀ rd f3 rs1 rs2 f7, let w := encode (.decodeR rd f3 rs1 rs2 f7)
    w.extractLsb' 25 7 = f7 ∧ w.extractLsb' 20 5 = rs2 ∧ w.extractLsb' 15 5 = rs1 ∧ w.extractLsb' 12 3 = f3 ∧
    w.extractLsb' 7 5 = rd ∧ w.extractLsb' 0 7 = 0x33#7) ∧
  (∀ rd f3 rs1 raw, let w := encode (.decodeI rd f3 rs1 raw)
    w.extractLsb' 20 12 = raw ∧ w.extractLsb' 15 5 = rs1 ∧ w.extractLsb' 12 3 = f3 ∧ w.extractLsb' 7 5 = rd ∧
    w.extractLsb' 0 7 = 0x13#7) ∧
  (∀ f3 rs1 rs2 raw, let w := encode (.decodeS f3 rs1 rs2 raw)
    w.extractLsb' 25 7 = raw.extractLsb' 5 7 ∧ w.extractLsb' 20 5 = rs2 ∧ w.extractLsb' 15 5 = rs1 ∧
    w.extractLsb' 12 3 = f3 ∧ w.extractLsb' 7 5 = raw.extractLsb' 0 5 ∧ w.extractLsb' 0 7 = 0x23#7) ∧
  (∀ f3 rs1 rs2 raw, let w := encode (.decodeB f3 rs1 rs2 raw)
    w.extractLsb' 31 1 = raw.extractLsb' 12 1 ∧ w.extractLsb' 25 6 = raw.extractLsb' 5 6 ∧ w.extractLsb' 20 5 = rs2 ∧
    w.extractLsb' 15 5 = rs1 ∧ w.extractLsb' 12 3 = f3 ∧ w.extractLsb' 8 4 = raw.extractLsb' 1 4 ∧
    w.extractLsb' 7 1 = raw.extractLsb' 11 1 ∧ w.extractLsb' 0 7 = 0x63#7) ∧
  (∀ rd raw, let w := encode (.decodeU rd raw)
    w.extractLsb' 12 20 = raw.extractLsb' 12 20 ∧ w.extractLsb' 7 5 = rd ∧ w.extractLsb' 0 7 = 0x37#7) ∧
  (∀ rd raw, let w := encode (.decodeJ rd raw)
    w.extractLsb' 31 1 = raw.extractLsb' 20 1 ∧ w.extractLsb' 21 10 = raw.extractLsb' 1 10 ∧
    w.extractLsb' 20 1 = raw.extractLsb' 11 1 ∧ w.extractLsb' 12 8 = raw.extractLsb' 12 8 ∧ w.extractLsb' 7 5 = rd ∧
    w.extractLsb' 0 7 = 0x6F#7) ∧
  (∀ w : Word, (rawB w).getLsbD 0 = false ∧ (rawU w).extractLsb' 0 12 = 0#12 ∧ (rawJ w).getLsbD 0 = false)

/-- Decoding an encoded well-formed instruction gives it back, as a word and as bytes in memory with the bytes after it left over
(spec/30_encoding.md section 2). The encoder, and the raw immediate an instruction holds, are the model's
(notes/assumptions/13.md). -/
def Obligations.DecodeOfEncodeIsTheInstruction : Prop :=
  ∀ i : Instr, i.WellFormed → decode (encode i) = .ok i ∧
    ∀ rest : List Byte, decodeBytes (encodeBytes i ++ rest) = some (i, rest)

/-- Encoding what a word decodes to gives the word back, and it is well formed: no bit of a word is dropped by decoding
(spec/30_encoding.md section 2, "Each table lists every bit of the word exactly once"). The encoder, and the raw immediate an
instruction holds, are the model's (notes/assumptions/13.md). -/
def Obligations.EncodeOfDecodeIsTheWord : Prop :=
  ∀ (w : Word) (i : Instr), decode w = .ok i → i.WellFormed ∧ encode i = w

/-- The combinational structure of spec/41_decode.md R82 (the spec's decision D1) computes the Decoder: for every word its ports show
the decoded value's fields and no other, or `dec_err` with the opcode the error carries and no field (R29, the spec's decision D21).
That `dec_err_opcode` is `none` without an error is the model's choice (notes/assumptions/10.md). -/
def Obligations.ReferenceStructureComputesDecode : Prop :=
  ∀ w : Word,
    match decodeWord w with
    | .ok d => (wires w).shows d
    | .error (.unsupportedOpcode op) => (wires w).showsError op ∧ op = w.extractLsb' 0 7

/-! ## FETCH -/

/-- R32: under every setting and at every pc a fetch is admitted at, the four bytes at pc..pc+3 are assembled little-endian. -/
def Obligations.FetchAssemblesLittleEndian : Prop :=
  ∀ (s : State) (b0 b1 b2 b3 : Byte), Fetchable s →
    memByte s s.pc.toNat = some b0 → memByte s (s.pc.toNat + 1) = some b1 →
    memByte s (s.pc.toNat + 2) = some b2 → memByte s (s.pc.toNat + 3) = some b3 →
    ∃ w t, fetch s = .ok (w, t) ∧
      w = b0.zeroExtend 32 ||| (b1.zeroExtend 32 <<< 8) ||| (b2.zeroExtend 32 <<< 16) ||| (b3.zeroExtend 32 <<< 24) ∧
      w.extractLsb' 0 8 = b0 ∧ w.extractLsb' 8 8 = b1 ∧ w.extractLsb' 16 8 = b2 ∧ w.extractLsb' 24 8 = b3

/-- spec/40_fetch.md R70: of CORE's state a successful FETCH writes the pc alone; memory, the register file, the Decoder's deliveries
and the fault status are as before. It returns the word at the pc and shows it on its output port: the latches `raw` and `fetchAddr`,
which it writes beside the pc, are the model's own fields (notes/assumptions/9.md). -/
def Obligations.FetchWritesOnlyThePc : Prop :=
  ∀ s : State, Fetchable s → ∃ w t, fetch s = .ok (w, t) ∧ w = wordAt s s.pc.toNat ∧ t.pc = s.pc + 4#32 ∧
    t.raw = w ∧ t.fetchAddr = s.pc ∧
    (∀ a, memByte t a = memByte s a) ∧ (∀ r, readReg t r = readReg s r) ∧ t.delivered = s.delivered ∧
    t.fault = s.fault ∧ t.params = s.params

/-- When FETCH raises what (spec/40_fetch.md R66, R67 and spec/60_exceptions.md R97, the spec's decisions D3, D5 and D6): the
alignment error exactly under `Fault` at a pc that is not a multiple of 4, and otherwise the bounds error exactly when one of the
four byte addresses is at or above MEM_SIZE, the sum not wrapped. -/
def Obligations.FetchRaisesExactlyTheseErrors : Prop :=
  ∀ (s : State) (e : Fault), fetch s = .error e ↔
    (s.params.fetchMisaligned = .fault ∧ s.pc.toNat % 4 ≠ 0 ∧ e = .misalignedFetch s.pc) ∨
    (¬ (s.params.fetchMisaligned = .fault ∧ s.pc.toNat % 4 ≠ 0) ∧
      (∃ k, k < 4 ∧ memByte s (s.pc.toNat + k) = none) ∧ e = .outOfBounds s.pc)

/-- A fetch error within a step (spec/42_step.md R85, the spec's decisions D4 and D15): `fault` receives the error with the fetch
address and nothing else changes, the pc included. Which error it is: the bounds error of spec/40_fetch.md R66 (decision D3), the
alignment error of R67 (decision D5), and the alignment error where both checks fail (spec/60_exceptions.md R97, decision D6); the model
follows these decisions (notes/assumptions/5.md). -/
def Obligations.FetchErrorIsRecordedAndPcKept : Prop :=
  ∀ s : State, s.fault = none →
    (s.params.fetchMisaligned = .fault → s.pc.toNat % 4 ≠ 0 →
      step s = .next { s with fault := some (.misalignedFetch s.pc) }) ∧
    ((s.params.fetchMisaligned = .fault → s.pc.toNat % 4 = 0) → s.params.memSize ≤ s.pc.toNat + 3 →
      step s = .next { s with fault := some (.outOfBounds s.pc) })

/-- The step advances the pc by 4 modulo 2^32 whatever word is fetched, and not at all where the fetch fails
(spec/40_fetch.md R69 with the spec's decision D4). -/
def Obligations.StepAdvancesPcByFourWhateverTheWord : Prop :=
  ∀ s : State, s.fault = none →
    (Fetchable s → ∃ t, step s = .next t ∧ t.pc = s.pc + 4#32 ∧ t.pc.toNat = (s.pc.toNat + 4) % 2 ^ 32) ∧
    (¬ Fetchable s → ∃ t, step s = .next t ∧ t.pc = s.pc)

/-- The pc wraps only at 0xFFFFFFFC in a memory of 2^32 bytes (spec/40_fetch.md R68, which the spec derives). -/
def Obligations.PcWrapsOnlyAtTheTopOfAFullMemory : Prop :=
  ∀ s t : State, s.params.memSize ≤ 2 ^ 32 → step s = .next t → t.pc.toNat < s.pc.toNat →
    s.params.memSize = 2 ^ 32 ∧ s.pc = 0xFFFFFFFC#32 ∧ t.pc = 0#32

/-- The pc's residue modulo 4 is kept by every step: aligned stays aligned, and under ReadBytes misaligned stays misaligned
(spec/10_state.md R17, spec/40_fetch.md R67, derived there). -/
def Obligations.StepKeepsPcAlignment : Prop :=
  ∀ s t : State, step s = .next t → t.pc.toNat % 4 = s.pc.toNat % 4

/-! ## The step -/

/-- A step runs the decoded instruction (spec/42_step.md R83, the spec's decision D2): where the word at the pc decodes to a
well-formed instruction, the step is exec of it on the state with the pc moved past the word and the fetch latches showing it. The
latches `fetchAddr` and `raw` are the model's own fields (notes/assumptions/9.md). -/
def Obligations.StepRunsTheDecodedInstruction : Prop :=
  ∀ (s : State) (i : Instr), s.fault = none → Fetchable s → i.WellFormed →
    decode (wordAt s s.pc.toNat) = .ok i →
    step s = exec i { s with pc := s.pc + 4#32, fetchAddr := s.pc, raw := wordAt s s.pc.toNat }

/-- spec/42_step.md R87: a successful step delivers `Decoded(a, r, d)`; afterwards the pc is `(a + 4) mod 2^32`, and no other state of
the spec's changes. The model's choices: the deliveries stand in State (notes/assumptions/8.md), and the step also writes the latches
`fetchAddr` and `raw`, fields of the model's own that then show `a` and `r` (notes/assumptions/9.md). -/
def Obligations.SuccessfulStepDeliversTheDecodedValue : Prop :=
  ∀ (s : State) (d : DecodedInstruction), s.fault = none → Fetchable s →
    decodeWord (wordAt s s.pc.toNat) = .ok d →
    step s = .next { s with
      pc := BitVec.ofNat 32 (s.pc.toNat + 4)
      fetchAddr := s.pc
      raw := wordAt s s.pc.toNat
      delivered := s.delivered ++ [⟨s.pc, wordAt s s.pc.toNat, d⟩] }

/-- A decode error within a step (spec/42_step.md R86, derived there, and the spec's decision D14): the pc stays advanced, `fault`
receives UnsupportedOpcode with the fetch address, and nothing is delivered. That the fetch has also written the latches
`fetchAddr` and `raw`, fields of the model's own, is the model's choice (notes/assumptions/9.md) and not R86's. That deliveries
are a list in State, here unchanged, is the model's choice too (notes/assumptions/8.md). -/
def Obligations.UnsupportedOpcodeIsRecordedAfterTheAdvance : Prop :=
  ∀ (s : State) (op : Opcode), s.fault = none → Fetchable s →
    decodeWord (wordAt s s.pc.toNat) = .error (.unsupportedOpcode op) →
    op = (wordAt s s.pc.toNat).extractLsb' 0 7 ∧
    step s = .next { s with
      pc := s.pc + 4#32
      fault := some (.unsupportedOpcode op s.pc)
      fetchAddr := s.pc
      raw := wordAt s s.pc.toNat }

/-- No step while faulted (spec/42_step.md R84 and R90, the spec's decision D15): the step stops with the recorded error, which is the
run's bad end, and a request leaves the state as it is. The outcome `fault` for a stopped machine is the model's choice (notes/assumptions/7.md). -/
def Obligations.FaultedCoreTakesNoStep : Prop :=
  ∀ (s : State) (e : Fault), s.fault = some e →
    step s = .fault e ∧ applyMove .fetchReq s = some s ∧ runEnd s = .faulted e

/-- Every step ends (spec/70_reset_and_hazards.md R115): it delivers exactly one decoded value, or it records an error (in
`fault`, the spec's decision D15) and delivers none. That the deliveries are a list in State, and that a step which meets an error
answers a next state, are the model's choices (notes/assumptions/8.md, 7.md). -/
def Obligations.EveryStepDeliversOrRecordsAnError : Prop :=
  ∀ s : State, s.fault = none → ∃ t, step s = .next t ∧
    ((t.fault = none ∧ ∃ x, t.delivered = s.delivered ++ [x]) ∨
     ((∃ e, t.fault = some e) ∧ t.delivered = s.delivered))

/-- CORE never writes memory (spec/20_memory.md R35): no step of any kind, a store-format word's included, changes a byte. Nor
does any change a register of the context (spec/10_state.md R18). That the register file, and the parameters, which no step
changes either, stand in State is the model's choice (notes/assumptions/4.md, 1.md). -/
def Obligations.StepNeverWritesMemory : Prop :=
  ∀ s t : State, step s = .next t →
    (∀ a, memByte t a = memByte s a) ∧ t.mem = s.mem ∧ (∀ r, readReg t r = readReg s r) ∧ t.params = s.params

/-- A step depends on the pc, the parameters and the fetched bytes alone (spec/20_memory.md R31, spec/10_state.md R18 and R22):
two states that agree on these, whatever else their memories, register files, ports and deliveries hold, take the same step. The
parameters, the deliveries and the latches stand in State by the model's choice (notes/assumptions/1.md, 8.md, 9.md). -/
def Obligations.StepReadsOnlyTheFetchedBytes : Prop :=
  ∀ s s' t : State, s'.params = s.params → s'.pc = s.pc → s'.fault = s.fault →
    (∀ a ∈ fetchReads s, memByte s' a = memByte s a) → step s = .next t →
    ∃ t' new, step s' = .next t' ∧ t'.pc = t.pc ∧ t'.fault = t.fault ∧
      t.delivered = s.delivered ++ new ∧ t'.delivered = s'.delivered ++ new

/-- spec/42_step.md R89, all but its pointer to R67: without environment moves the pc runs through a, a+4, a+8, ..., whatever the
decoded words are, no register (so no link register) is written, and each word's decoded value, its immediate unchanged, is handed
over for its own address. That the values handed over stand in a list in State is the model's choice (notes/assumptions/8.md). -/
def Obligations.RunWithoutMovesFallsThrough : Prop :=
  ∀ (n : Nat) (s t : State), runSteps n s = .next t → t.fault = none →
    t.pc = s.pc + BitVec.ofNat 32 (4 * n) ∧ (∀ r, readReg t r = readReg s r) ∧
    ∃ new : List Delivery, t.delivered = s.delivered ++ new ∧ new.length = n ∧
      ∀ (k : Nat) (x : Delivery), new[k]? = some x →
        x.addr = s.pc + BitVec.ofNat 32 (4 * k) ∧ x.raw = wordAt s x.addr.toNat ∧ decodeWord x.raw = .ok x.value

/-- What the output ports show after a step (spec/10_state.md R29 and spec/60_exceptions.md R95, the spec's decisions D1, D12, D13
and D21): the word and the fields of its variant; or the opcode of an UnsupportedOpcode and no field; or the code and address of a
failed fetch and neither word nor field. The model's choice (notes/assumptions/10.md), since the spec does not say what these
ports show then: after a failed fetch `raw` and every decoder port, `dec_err` included, are `none`; `fetch_err_addr` is `none`
unless the fetch failed; `dec_err_opcode` is `none` unless the decode failed. The view reads the deliveries and the latches that
State holds by the model's choice (notes/assumptions/8.md, 9.md). -/
def Obligations.PortsShowTheResultOfTheStep : Prop :=
  ∀ s : State, s.fault = none →
    (∀ d, Fetchable s → decodeWord (wordAt s s.pc.toNat) = .ok d → ∃ t, step s = .next t ∧
      ports t = ⟨s.pc + 4#32, some (wordAt s s.pc.toNat), some 0#2, none, some (formatTag d.format), some d.opcode,
        d.rd?, d.rs1?, d.rs2?, d.funct3?, d.funct7?, d.imm?, some 0#1, none⟩) ∧
    (∀ op, Fetchable s → decodeWord (wordAt s s.pc.toNat) = .error (.unsupportedOpcode op) → ∃ t, step s = .next t ∧
      ports t = ⟨s.pc + 4#32, some (wordAt s s.pc.toNat), some 0#2, none, none, none,
        none, none, none, none, none, none, some 1#1, some op⟩) ∧
    (¬ Fetchable s → ∃ t, step s = .next t ∧
      ports t = ⟨s.pc, none,
        some (if s.params.fetchMisaligned = .fault ∧ s.pc.toNat % 4 ≠ 0 then 3#2 else 2#2), some s.pc, none, none,
        none, none, none, none, none, none, none, none⟩)

/-! ## Reset, the environment and the invariant -/

/-- What reset leaves (spec/70_reset_and_hazards.md R105 to R108, the spec's decisions D9, D10, D15 and D25), for every parameter
and every register file, at construction and as an environment move: pc at RESET_PC, no fault, memory at MEM_INIT. The model's
choices: that nothing is delivered afterwards (notes/assumptions/8.md), and that the reset move keeps the parameters and carries
the register contents (notes/assumptions/11.md). The parameters stand in State by the model's choice (notes/assumptions/1.md). -/
def Obligations.ResetLeavesTheSpecifiedState : Prop :=
  (∀ (p : Params) (r : Vector Word 32),
    (State.construct p r).pc = p.resetPc ∧ (State.construct p r).fault = none ∧
    (∀ a, a < p.memSize → memByte (State.construct p r) a = some (p.memInit.read a)) ∧
    (State.construct p r).delivered = [] ∧ (State.construct p r).params = p) ∧
  (∀ (s : State) (r : Vector Word 32), applyMove (.reset r) s = some (State.construct s.params r)) ∧
  State.reset.params.memSize = 1048576 ∧ State.reset.params.fetchMisaligned = .fault

/-- The invariant holds after every construction, `State.reset` included. The invariant is the model's: the canonical form of
memory (notes/assumptions/3.md), the deliveries in State (8.md) and the bounds that the types do not give (16.md) are its choices. -/
def Obligations.ConstructionMeetsTheInvariant : Prop :=
  (∀ (p : Params) (r : Vector Word 32), p.Ok → Inv (State.construct p r)) ∧ Inv State.reset

/-- Every step keeps the invariant (the canonical memory inside MEM_SIZE; a recorded error's condition, spec/60_exceptions.md R91;
every delivery the decoding of its own word, fetched at an admitted address). The invariant is the model's: the canonical form of
memory (notes/assumptions/3.md), the deliveries in State (8.md) and the bounds that the types do not give (16.md) are its choices. -/
def Obligations.StepKeepsTheInvariant : Prop :=
  ∀ s t : State, Inv s → step s = .next t → Inv t

/-- Every sequence of environment moves keeps the invariant (spec/42_step.md R88, the spec's decision D16: "A claim about CORE
must hold for every sequence of environment moves that its premises allow"). The invariant is the model's: the canonical form
of memory (notes/assumptions/3.md), the deliveries in State (8.md) and the bounds that the types do not give (16.md) are its
choices. The moves are R88's and the register write of notes/assumptions/11.md. That the writes among them are admitted while
a fault is held is the model's choice (notes/assumptions/17.md). -/
def Obligations.EnvironmentMovesKeepTheInvariant : Prop :=
  ∀ (ms : List Move) (s t : State), Inv s → applyMoves ms s = some t → Inv t

/-- Only reset clears `fault` (spec/10_state.md R23 and spec/42_step.md R88, the spec's decisions D15 and D16), and no move
changes a parameter: R88 says so of MEM_SIZE; for the other parameters, and for the reset move, it is the model's choice to
hold them as data that nothing changes (notes/assumptions/1.md) and its reading that a reset keeps them
(notes/assumptions/11.md). That the other moves are admitted, and write, while a fault is held is the model's choice
(notes/assumptions/17.md). -/
def Obligations.OnlyResetClearsTheFault : Prop :=
  ∀ (ms : List Move) (s t : State) (e : Fault), applyMoves ms s = some t →
    t.params = s.params ∧ (s.fault = some e → (∀ r, Move.reset r ∉ ms) → t.fault = some e)

/-- A write by the environment is seen by the next fetch (spec/20_memory.md R43, the spec's decision D17): the four bytes
written at the pc are the word the next fetch returns. That the bytes can be written while a fault is held too is the model's
choice (notes/assumptions/17.md). -/
def Obligations.WrittenBytesAreFetchedNext : Prop :=
  ∀ (s : State) (b0 b1 b2 b3 : Byte), Inv s → Fetchable s →
    ∃ t t', applyMoves [.writeByte s.pc.toNat b0, .writeByte (s.pc.toNat + 1) b1, .writeByte (s.pc.toNat + 2) b2,
        .writeByte (s.pc.toNat + 3) b3] s = some t ∧
      fetch t = .ok (b3 ++ b2 ++ b1 ++ b0, t') ∧
      ∀ a, (a < s.pc.toNat ∨ s.pc.toNat + 3 < a) → memByte t a = memByte s a

/-- A booted CORE fetches (spec/70_reset_and_hazards.md R111, the spec's decisions D9 and D10): constructed, and started at RESET_PC or at
an address written to the pc, if that address is aligned and its word lies inside memory, the first step is no fetch error: it delivers
the decoding of the word there, or records that word's unsupported opcode and delivers nothing. That construction starts with nothing
delivered and that the deliveries stand in State are the model's choices (notes/assumptions/8.md), the latch `raw` too (9.md). -/
def Obligations.BootedCoreFetchesItsFirstWord : Prop :=
  ∀ (p : Params) (r : Vector Word 32) (start : Word) (s : State),
    (s = State.construct p r ∧ start = p.resetPc) ∨ applyMove (.writePc start) (State.construct p r) = some s →
    start.toNat % 4 = 0 → start.toNat + 3 < p.memSize →
    ∃ t, step s = .next t ∧ t.raw = wordAt s start.toNat ∧ t.pc = start + 4#32 ∧
      ((∃ d, decodeWord (wordAt s start.toNat) = .ok d ∧ t.fault = none ∧
          t.delivered = [⟨start, wordAt s start.toNat, d⟩]) ∨
       (formatOf ((wordAt s start.toNat).extractLsb' 0 7) = none ∧
          t.fault = some (.unsupportedOpcode ((wordAt s start.toNat).extractLsb' 0 7) start) ∧ t.delivered = []))

/-- The word placed by `withFetchWord` is the one the next step fetches and runs, wherever the pc admits a fetch. Placing a word
is the model's stand-in for the loader (notes/assumptions/12.md). So are the latches `raw` and `fetchAddr` and the deliveries in
State (notes/assumptions/9.md, 8.md). -/
def Obligations.PlacedWordRunsNext : Prop :=
  ∀ (s : State) (w : Word) (i : Instr), Inv s → Fetchable s → decode w = .ok i →
    ∃ u, step (s.withFetchWord 32 w.toNat) = exec i u ∧ u.raw = w ∧ u.fetchAddr = s.pc ∧ u.pc = s.pc + 4#32 ∧
      u.regs = s.regs ∧ u.params = s.params ∧ u.delivered = s.delivered ∧ u.fault = none

/-- Several instances share no state (spec/60_exceptions.md R104): a move on one is that instance's own move and leaves every
other as it is. Holding the instances as a list of states, moved one at a time, is the model's reading (notes/assumptions/15.md). -/
def Obligations.InstancesShareNoState : Prop :=
  ∀ (k : Nat) (m : Move) (cores after : List State), applyMoveAt k m cores = some after →
    after.length = cores.length ∧ (∀ j, j ≠ k → after[j]? = cores[j]?) ∧
    ∃ s t, cores[k]? = some s ∧ applyMove m s = some t ∧ after[k]? = some t

/-- The canonical form is canonical: two memories in it that read alike at every address are the same data. The form is the model's
choice (notes/assumptions/3.md). -/
def Obligations.MemoriesThatReadAlikeAreEqual : Prop :=
  ∀ m n : Memory, m.wf = true → n.wf = true → (∀ a, m.read a = n.read a) → m = n
end

