-- ==== Sys2Proof/Laws/Bits.lean ====
section
/-! SUPPORT. Slices of appends and appends of slices: what the encoding proofs rewrite with. -/

namespace Sys2Proof

/-- The low bits of an append are its right part. -/
theorem extract_right {n m : Nat} (x : BitVec n) (y : BitVec m) : (x ++ y).extractLsb' 0 m = y := by
  ext k hk
  simp [BitVec.getLsbD_append, hk]

/-- A slice that lies in the left part of an append. -/
theorem extract_append_left {n m : Nat} (x : BitVec n) (y : BitVec m) (a k : Nat) (h : m ≤ a) :
    (x ++ y).extractLsb' a k = x.extractLsb' (a - m) k := by
  ext i hi
  simp [BitVec.getLsbD_append, show ¬ a + i < m by omega, show a + i - m = a - m + i by omega]

/-- A slice that lies in the right part of an append. -/
theorem extract_append_right {n m : Nat} (x : BitVec n) (y : BitVec m) (a k : Nat) (h : a + k ≤ m) :
    (x ++ y).extractLsb' a k = y.extractLsb' a k := by
  ext i hi
  simp [BitVec.getLsbD_append, show a + i < m by omega]

/-- The slice of all bits. -/
theorem extract_all {n : Nat} (x : BitVec n) : x.extractLsb' 0 n = x := by
  ext i hi
  simp

/-- Two adjacent slices of one value make one slice. -/
theorem append_adjacent {n : Nat} (w : BitVec n) (k l b : Nat) :
    w.extractLsb' (b + l) k ++ w.extractLsb' b l = w.extractLsb' b (k + l) := by
  ext i hi
  simp only [BitVec.getElem_append, BitVec.getElem_extractLsb']
  split <;> congr 1; omega

/-- A word whose last seven bits are appended as `op` has the opcode `op`. -/
theorem opcodeOf_append (x : BitVec 25) (op : Opcode) : opcodeOf (x ++ op : BitVec 32) = op := extract_right x op

/-- A word cut into bytes in memory order and put together again (R32). -/
theorem wordOfBytes_byteOfWord (w : Word) :
    wordOfBytes (byteOfWord w 0) (byteOfWord w 1) (byteOfWord w 2) (byteOfWord w 3) = w := by
  have h1 : byteOfWord w 3 ++ byteOfWord w 2 = w.extractLsb' 16 16 := append_adjacent w 8 8 16
  have h2 : w.extractLsb' 16 16 ++ byteOfWord w 1 = w.extractLsb' 8 24 := append_adjacent w 16 8 8
  have h3 : w.extractLsb' 8 24 ++ byteOfWord w 0 = w.extractLsb' 0 32 := append_adjacent w 24 8 0
  unfold wordOfBytes
  rw [h1]
  exact (congrArg (· ++ byteOfWord w 0) h2).trans (h3.trans (extract_all w))

end Sys2Proof
end

