-- ==== Sys2Proof/Laws/Decode.lean ====
section
/-! SUPPORT. What the classifier and the decoder answer, said once. -/

namespace Sys2Proof

@[simp] theorem formatOf_opcode (f : Format) : formatOf f.opcode = some f := by cases f <;> rfl

/-- The map of R47 is exact: a format is chosen by its own opcode alone. -/
theorem formatOf_eq_some_iff (op : Opcode) (f : Format) : formatOf op = some f ↔ op = f.opcode := by
  constructor
  · intro h
    unfold formatOf at h
    repeat' split at h
    all_goals first | (cases h; assumption) | cases h
  · rintro rfl; exact formatOf_opcode f

/-- DECODE answers an instruction exactly for a recognised opcode, and it is the one that format holds. -/
theorem decode_ok_iff (w : Word) (i : Instr) :
    decode w = .ok i ↔ ∃ f, opcodeOf w = f.opcode ∧ i = instrOf f w := by
  unfold decode
  cases h : formatOf (opcodeOf w) with
  | none =>
    simp only [reduceCtorEq, false_iff, not_exists, not_and]
    intro f hf; rw [hf, formatOf_opcode] at h; cases h
  | some g =>
    have hg := (formatOf_eq_some_iff _ _).mp h
    constructor
    · intro hi; cases hi; exact ⟨g, hg, rfl⟩
    · rintro ⟨f, hf, rfl⟩
      have : some g = some f := by rw [← h, hf, formatOf_opcode]
      cases this; rfl

/-- DECODE rejects exactly the unrecognised opcodes, and says which. -/
theorem decode_error_iff (w : Word) (e : DecodeError) :
    decode w = .error e ↔ formatOf (opcodeOf w) = none ∧ e = .unsupportedOpcode (opcodeOf w) := by
  unfold decode
  cases h : formatOf (opcodeOf w) <;> simp [eq_comm]

@[simp] theorem instrOf_format (f : Format) (w : Word) : (instrOf f w).format = f := by cases f <;> rfl

end Sys2Proof

namespace Sys2Proof.Machine

@[simp] theorem valueOf_opcode (i : Instr) : (valueOf i).opcode = i.format.opcode := by cases i <;> rfl

@[simp] theorem valueOf_format (i : Instr) : (valueOf i).format = i.format := by cases i <;> rfl

theorem decodeWord_of_decode {w : Word} {i : Instr} (h : decode w = .ok i) : decodeWord w = .ok (valueOf i) := by
  simp [decodeWord, h, Except.map]

end Sys2Proof.Machine
end

