-- ==== Sys2Proof/Laws/State.lean ====
section
/-! SUPPORT. What each update of State does to each field: later proofs rewrite with these and never unfold an update. -/

namespace Sys2Proof.Machine

section
variable (s : State) (w v : Word) (e : Fault) (d : DecodedInstruction) (a : Nat) (b : Byte) (i : RegIdx)

@[simp] theorem advance_params : (advance s w).params = s.params := rfl
@[simp] theorem advance_pc : (advance s w).pc = s.pc + 4#32 := rfl
@[simp] theorem advance_fault : (advance s w).fault = s.fault := rfl
@[simp] theorem advance_mem : (advance s w).mem = s.mem := rfl
@[simp] theorem advance_regs : (advance s w).regs = s.regs := rfl
@[simp] theorem advance_fetchAddr : (advance s w).fetchAddr = s.pc := rfl
@[simp] theorem advance_raw : (advance s w).raw = w := rfl
@[simp] theorem advance_delivered : (advance s w).delivered = s.delivered := rfl

@[simp] theorem raise_params : (raise e s).params = s.params := rfl
@[simp] theorem raise_pc : (raise e s).pc = s.pc := rfl
@[simp] theorem raise_fault : (raise e s).fault = some e := rfl
@[simp] theorem raise_mem : (raise e s).mem = s.mem := rfl
@[simp] theorem raise_regs : (raise e s).regs = s.regs := rfl
@[simp] theorem raise_fetchAddr : (raise e s).fetchAddr = s.fetchAddr := rfl
@[simp] theorem raise_raw : (raise e s).raw = s.raw := rfl
@[simp] theorem raise_delivered : (raise e s).delivered = s.delivered := rfl

@[simp] theorem deliver_params : (deliver d s).params = s.params := rfl
@[simp] theorem deliver_pc : (deliver d s).pc = s.pc := rfl
@[simp] theorem deliver_fault : (deliver d s).fault = s.fault := rfl
@[simp] theorem deliver_mem : (deliver d s).mem = s.mem := rfl
@[simp] theorem deliver_regs : (deliver d s).regs = s.regs := rfl
@[simp] theorem deliver_fetchAddr : (deliver d s).fetchAddr = s.fetchAddr := rfl
@[simp] theorem deliver_raw : (deliver d s).raw = s.raw := rfl
@[simp] theorem deliver_delivered :
    (deliver d s).delivered = s.delivered ++ [⟨s.fetchAddr, s.raw, d⟩] := rfl

@[simp] theorem writeReg_params : (writeReg s i v).params = s.params := rfl
@[simp] theorem writeReg_pc : (writeReg s i v).pc = s.pc := rfl
@[simp] theorem writeReg_fault : (writeReg s i v).fault = s.fault := rfl
@[simp] theorem writeReg_mem : (writeReg s i v).mem = s.mem := rfl
@[simp] theorem writeReg_fetchAddr : (writeReg s i v).fetchAddr = s.fetchAddr := rfl
@[simp] theorem writeReg_raw : (writeReg s i v).raw = s.raw := rfl
@[simp] theorem writeReg_delivered : (writeReg s i v).delivered = s.delivered := rfl

@[simp] theorem writeByte_params : (writeByte s a b).params = s.params := by unfold writeByte; split <;> rfl
@[simp] theorem writeByte_pc : (writeByte s a b).pc = s.pc := by unfold writeByte; split <;> rfl
@[simp] theorem writeByte_fault : (writeByte s a b).fault = s.fault := by unfold writeByte; split <;> rfl
@[simp] theorem writeByte_regs : (writeByte s a b).regs = s.regs := by unfold writeByte; split <;> rfl
@[simp] theorem writeByte_fetchAddr : (writeByte s a b).fetchAddr = s.fetchAddr := by
  unfold writeByte; split <;> rfl
@[simp] theorem writeByte_raw : (writeByte s a b).raw = s.raw := by unfold writeByte; split <;> rfl
@[simp] theorem writeByte_delivered : (writeByte s a b).delivered = s.delivered := by
  unfold writeByte; split <;> rfl

end

section
variable (p : Params) (r : Vector Word 32)

@[simp] theorem construct_params : (State.construct p r).params = p := rfl
@[simp] theorem construct_pc : (State.construct p r).pc = p.resetPc := rfl
@[simp] theorem construct_fault : (State.construct p r).fault = none := rfl
@[simp] theorem construct_mem : (State.construct p r).mem = p.memInit := rfl
@[simp] theorem construct_regs : (State.construct p r).regs = r := rfl
@[simp] theorem construct_delivered : (State.construct p r).delivered = [] := rfl

end

/-- A register written reads back; every other register is unchanged. -/
theorem readReg_writeReg (s : State) (i j : RegIdx) (v : Word) :
    readReg (writeReg s i v) j = if i = j then v else readReg s j := by
  simp only [readReg, writeReg, Vector.get_eq_getElem, Vector.getElem_set]
  by_cases h : i = j
  · simp [h]
  · have : ¬ i.toNat = j.toNat := fun hn => h (BitVec.eq_of_toNat_eq hn)
    simp_all

end Sys2Proof.Machine
end

