-- ==== Sys2Proof/Laws/Memory.lean ====
section
/-! SUPPORT. The laws of memory contents: read after write, and that a write keeps the canonical form. -/

namespace Sys2Proof

@[simp] theorem Memory.read_nil (a : Nat) : Memory.read [] a = Memory.unlisted := rfl

theorem Memory.read_cons (k : Nat) (v : Byte) (m : Memory) (a : Nat) :
    Memory.read ((k, v) :: m) a = if k = a then v else Memory.read m a := rfl

theorem Memory.wfFrom_cons (lo k : Nat) (v : Byte) (m : Memory) :
    Memory.wfFrom lo ((k, v) :: m) = true ↔ lo ≤ k ∧ v ≠ Memory.unlisted ∧ Memory.wfFrom (k + 1) m = true := by
  simp [Memory.wfFrom, and_assoc]

theorem Memory.wfFrom_mono {lo hi : Nat} {m : Memory} (h : Memory.wfFrom hi m = true) (hl : lo ≤ hi) :
    Memory.wfFrom lo m = true := by
  cases m with
  | nil => rfl
  | cons c m =>
    obtain ⟨k, v⟩ := c
    rw [Memory.wfFrom_cons] at h ⊢
    exact ⟨by omega, h.2⟩

/-- Below its first listed address a canonical list reads as unlisted. -/
theorem Memory.read_below {lo a : Nat} {m : Memory} (h : Memory.wfFrom lo m = true) (ha : a < lo) :
    Memory.read m a = Memory.unlisted := by
  induction m generalizing lo with
  | nil => rfl
  | cons c m ih =>
    obtain ⟨k, v⟩ := c
    rw [Memory.wfFrom_cons] at h
    rw [Memory.read_cons, if_neg (by omega)]
    exact ih h.2.2 (by omega)

theorem Memory.write_nil (a : Nat) (b : Byte) :
    Memory.write [] a b = if b = Memory.unlisted then [] else [(a, b)] := rfl

theorem Memory.write_above {k a : Nat} (h : k < a) (v : Byte) (m : Memory) (b : Byte) :
    Memory.write ((k, v) :: m) a b = (k, v) :: Memory.write m a b := by simp [Memory.write, h]

theorem Memory.write_at (a : Nat) (v : Byte) (m : Memory) (b : Byte) :
    Memory.write ((a, v) :: m) a b = if b = Memory.unlisted then m else (a, b) :: m := by simp [Memory.write]

theorem Memory.write_below {k a : Nat} (h : a < k) (v : Byte) (m : Memory) (b : Byte) :
    Memory.write ((k, v) :: m) a b = if b = Memory.unlisted then (k, v) :: m else (a, b) :: (k, v) :: m := by
  simp [Memory.write, show ¬ k < a by omega, show ¬ k = a by omega]

/-- A write leaves every other address alone. -/
theorem Memory.read_write_other (m : Memory) {a c : Nat} (b : Byte) (h : a ≠ c) :
    Memory.read (Memory.write m a b) c = Memory.read m c := by
  induction m with
  | nil => rw [Memory.write_nil]; split <;> simp [Memory.read_cons, h]
  | cons x m ih =>
    obtain ⟨k, v⟩ := x
    rcases Nat.lt_trichotomy k a with hk | rfl | hk
    · rw [Memory.write_above hk, Memory.read_cons, Memory.read_cons, ih]
    · rw [Memory.write_at]; split <;> simp [Memory.read_cons, h]
    · rw [Memory.write_below hk]; split <;> simp [Memory.read_cons, h]

/-- A byte written reads back. -/
theorem Memory.read_write_same {lo : Nat} {m : Memory} (hm : Memory.wfFrom lo m = true) (a : Nat) (b : Byte) :
    Memory.read (Memory.write m a b) a = b := by
  induction m generalizing lo with
  | nil => rw [Memory.write_nil]; split <;> simp_all [Memory.read_cons]
  | cons x m ih =>
    obtain ⟨k, v⟩ := x
    rw [Memory.wfFrom_cons] at hm
    rcases Nat.lt_trichotomy k a with hk | rfl | hk
    · rw [Memory.write_above hk, Memory.read_cons, if_neg (by omega), ih hm.2.2]
    · rw [Memory.write_at]
      split
      · next hb => rw [hb]; exact Memory.read_below hm.2.2 (Nat.lt_succ_self k)
      · simp [Memory.read_cons]
    · rw [Memory.write_below hk]
      split
      · next hb =>
        rw [hb, Memory.read_cons, if_neg (by omega)]
        exact Memory.read_below hm.2.2 (by omega)
      · simp [Memory.read_cons]

/-- Every write keeps the canonical form. -/
theorem Memory.write_wfFrom {lo : Nat} {m : Memory} (hm : Memory.wfFrom lo m = true) {a : Nat} (ha : lo ≤ a) (b : Byte) :
    Memory.wfFrom lo (Memory.write m a b) = true := by
  induction m generalizing lo with
  | nil => rw [Memory.write_nil]; split <;> simp_all [Memory.wfFrom]
  | cons x m ih =>
    obtain ⟨k, v⟩ := x
    have hm' := (Memory.wfFrom_cons lo k v m).mp hm
    rcases Nat.lt_trichotomy k a with hk | rfl | hk
    · rw [Memory.write_above hk, Memory.wfFrom_cons]
      exact ⟨hm'.1, hm'.2.1, ih hm'.2.2 hk⟩
    · rw [Memory.write_at]
      split
      · exact Memory.wfFrom_mono hm'.2.2 (by omega)
      · next hb => rw [Memory.wfFrom_cons]; exact ⟨ha, hb, hm'.2.2⟩
    · rw [Memory.write_below hk]
      split
      · exact hm
      · next hb =>
        rw [Memory.wfFrom_cons, Memory.wfFrom_cons]
        exact ⟨ha, hb, hk, hm'.2.1, hm'.2.2⟩

theorem Memory.write_wf {m : Memory} (hm : m.wf = true) (a : Nat) (b : Byte) : (Memory.write m a b).wf = true :=
  Memory.write_wfFrom hm (Nat.zero_le a) b

theorem Memory.within_cons (size k : Nat) (v : Byte) (m : Memory) :
    Memory.within size ((k, v) :: m) = true ↔ k < size ∧ Memory.within size m = true := by
  simp [Memory.within]

/-- A write inside memory lists nothing outside it. -/
theorem Memory.write_within {size : Nat} {m : Memory} (hm : m.within size = true) {a : Nat} (ha : a < size) (b : Byte) :
    (Memory.write m a b).within size = true := by
  induction m with
  | nil => rw [Memory.write_nil]; split <;> simp_all [Memory.within]
  | cons x m ih =>
    obtain ⟨k, v⟩ := x
    have hk := (Memory.within_cons size k v m).mp hm
    rcases Nat.lt_trichotomy k a with h | rfl | h
    · rw [Memory.write_above h, Memory.within_cons]; exact ⟨hk.1, ih hk.2⟩
    · rw [Memory.write_at]; split
      · exact hk.2
      · exact (Memory.within_cons _ _ _ _).mpr ⟨ha, hk.2⟩
    · rw [Memory.write_below h]; split
      · exact hm
      · exact (Memory.within_cons _ _ _ _).mpr ⟨ha, hm⟩

/-- Nothing is lost by the canonical form: every contents of `size` bytes has a canonical list inside memory. -/
theorem exists_memory_of_bytes (size : Nat) (f : Nat → Byte) :
    ∃ m : Memory, m.wf = true ∧ m.within size = true ∧ ∀ a, a < size → m.read a = f a := by
  induction size with
  | zero => exact ⟨[], rfl, rfl, by simp⟩
  | succ n ih =>
    obtain ⟨m, hwf, hin, hread⟩ := ih
    have hin' : m.within (n + 1) = true := by
      simp only [Memory.within, List.all_eq_true, decide_eq_true_eq] at hin ⊢
      exact fun c hc => Nat.lt_succ_of_lt (hin c hc)
    refine ⟨m.write n (f n), Memory.write_wf hwf n _, Memory.write_within hin' (Nat.lt_succ_self n) _, ?_⟩
    intro a ha
    by_cases h : n = a
    · subst h; exact Memory.read_write_same hwf n (f n)
    · rw [Memory.read_write_other m _ h]; exact hread a (by omega)

end Sys2Proof

namespace Sys2Proof.Machine

/-- The environment's write of a byte, seen through the byte reads: the byte written, and every other byte as before. -/
theorem memByte_writeByte {s : State} (hs : s.mem.wf = true) {a : Nat} (ha : a < s.params.memSize) (b : Byte) (c : Nat) :
    memByte (writeByte s a b) c = if c = a then some b else memByte s c := by
  have hw : writeByte s a b = { s with mem := s.mem.write a b } := by unfold writeByte; rw [if_pos ha]
  rw [hw]
  by_cases h : c = a
  · subst h; simp [memByte, ha, Memory.read_write_same hs]
  · simp [memByte, h, Memory.read_write_other s.mem b (Ne.symm h)]

theorem writeByte_wf {s : State} (hs : s.mem.wf = true) (a : Nat) (b : Byte) : (writeByte s a b).mem.wf = true := by
  unfold writeByte
  split
  · exact Memory.write_wf hs a b
  · exact hs

theorem writeByte_within {s : State} (hs : s.mem.within s.params.memSize = true) (a : Nat) (b : Byte) :
    (writeByte s a b).mem.within s.params.memSize = true := by
  unfold writeByte
  split
  · next ha => exact Memory.write_within hs ha b
  · exact hs

/-- A byte a state holds is what its contents read as. -/
theorem read_of_memByte {s : State} {a : Nat} {b : Byte} (h : memByte s a = some b) : s.mem.read a = b := by
  unfold memByte at h
  split at h <;> simp_all

/-- Four bytes written one after the other, seen through the byte reads and as a word. -/
theorem write_four_bytes {s : State} (hs : s.mem.wf = true) {n : Nat} (hn : n + 3 < s.params.memSize) (b0 b1 b2 b3 : Byte) :
    let t := writeByte (writeByte (writeByte (writeByte s n b0) (n + 1) b1) (n + 2) b2) (n + 3) b3
    wordAt t n = wordOfBytes b0 b1 b2 b3 ∧ ∀ a, (a < n ∨ n + 3 < a) → memByte t a = memByte s a := by
  intro t
  have h1 := writeByte_wf hs n b0
  have h2 := writeByte_wf h1 (n + 1) b1
  have h3 := writeByte_wf h2 (n + 2) b2
  have hb : ∀ a, memByte t a = if a = n + 3 then some b3 else if a = n + 2 then some b2 else
      if a = n + 1 then some b1 else if a = n then some b0 else memByte s a := by
    intro a
    rw [memByte_writeByte h3 (by simp; omega), memByte_writeByte h2 (by simp; omega),
      memByte_writeByte h1 (by simp; omega), memByte_writeByte hs (by omega)]
  refine ⟨?_, fun a ha => ?_⟩
  · unfold wordAt
    rw [read_of_memByte (show memByte t n = some b0 by rw [hb]; simp),
      read_of_memByte (show memByte t (n + 1) = some b1 by rw [hb]; simp),
      read_of_memByte (show memByte t (n + 2) = some b2 by rw [hb]; simp),
      read_of_memByte (show memByte t (n + 3) = some b3 by rw [hb]; simp)]
  · rw [hb, if_neg (by omega), if_neg (by omega), if_neg (by omega), if_neg (by omega)]

end Sys2Proof.Machine
end

