-- ==== Sys2Proof/Laws/Fetch.lean ====
section
/-! SUPPORT. FETCH, said once: when each check fires, and the three things a fetch can answer. -/

namespace Sys2Proof.Machine

theorem slice_two_eq_zero_iff (a : Word) : slice a 0 2 = 0#2 ↔ a.toNat % 4 = 0 := by
  unfold slice
  constructor
  · intro h
    have := congrArg BitVec.toNat h
    simpa using this
  · intro h
    apply BitVec.eq_of_toNat_eq
    simpa using h

theorem misalignedAt_iff (s : State) (a : Word) :
    misalignedAt s a = true ↔ s.params.fetchMisaligned = .fault ∧ a.toNat % 4 ≠ 0 := by
  simp [misalignedAt, slice_two_eq_zero_iff]

theorem outOfBoundsAt_iff (s : State) (a : Word) :
    outOfBoundsAt s a = true ↔ s.params.memSize ≤ a.toNat + 3 := by
  simp [outOfBoundsAt]

/-- Everything FETCH can do. -/
theorem fetch_cases (s : State) :
    (misalignedAt s s.pc = true ∧ fetch s = .error (.misalignedFetch s.pc)) ∨
    (misalignedAt s s.pc = false ∧ outOfBoundsAt s s.pc = true ∧ fetch s = .error (.outOfBounds s.pc)) ∨
    (misalignedAt s s.pc = false ∧ outOfBoundsAt s s.pc = false ∧
      fetch s = .ok (wordAt s s.pc.toNat, advance s (wordAt s s.pc.toNat))) := by
  unfold fetch memRead
  cases misalignedAt s s.pc <;> cases outOfBoundsAt s s.pc <;> simp

/-- A fetch succeeds at a pc that the setting and the memory size admit, and only there. -/
theorem fetch_ok_iff (s : State) (w : Word) (t : State) :
    fetch s = .ok (w, t) ↔ Fetchable s ∧ w = wordAt s s.pc.toNat ∧ t = advance s (wordAt s s.pc.toNat) := by
  have hF : Fetchable s ↔ misalignedAt s s.pc = false ∧ outOfBoundsAt s s.pc = false := by
    rw [Bool.eq_false_iff, Bool.eq_false_iff, ne_eq, ne_eq, misalignedAt_iff, outOfBoundsAt_iff]
    unfold Fetchable
    constructor
    · rintro ⟨h1, h2⟩; exact ⟨fun h => h.2 (h1 h.1), by omega⟩
    · rintro ⟨h1, h2⟩
      exact ⟨fun h => by by_contra hn; exact h1 ⟨h, hn⟩, by omega⟩
  rw [hF]
  rcases fetch_cases s with ⟨h1, h2⟩ | ⟨h1, h2, h3⟩ | ⟨h1, h2, h3⟩
  · simp [h1, h2]
  · simp [h2, h3]
  · simp [h1, h2, h3, eq_comm]

/-- The value a successful fetch answers, given that the pc admits it. -/
theorem fetch_of_fetchable {s : State} (h : Fetchable s) :
    fetch s = .ok (wordAt s s.pc.toNat, advance s (wordAt s s.pc.toNat)) :=
  (fetch_ok_iff s _ _).mpr ⟨h, rfl, rfl⟩

end Sys2Proof.Machine
end

