-- ==== Sys2Proof/Laws/Step.lean ====
section
/-! SUPPORT. What one step can do, said once; every proof about the step cites `step_cases`. -/

namespace Sys2Proof.Machine

/-- Every meaning delivers the instruction's value and does nothing else. -/
theorem exec_eq_deliver (i : Instr) (s : State) : exec i s = .next (deliver (valueOf i) s) := by cases i <;> rfl

/-- A held fault is the outcome. -/
theorem step_of_fault {s : State} {e : Fault} (h : s.fault = some e) : step s = .fault e := by
  simp [step, stepBody, h]

/-- A fetch error is recorded and nothing else changes. -/
theorem step_of_fetch_error {s : State} {e : Fault} (h : s.fault = none) (hf : fetch s = .error e) :
    step s = .next (raise e s) := by
  simp [step, stepBody, h, hf]

/-- A decode error is recorded on the state the fetch left. -/
theorem step_of_decode_error {s t : State} {w : Word} {e : DecodeError} (h : s.fault = none)
    (hf : fetch s = .ok (w, t)) (hd : decode w = .error e) : step s = .next (raise (faultOfDecode t e) t) := by
  simp [step, stepBody, h, hf, hd]

/-- A decoded word runs on the state the fetch left. -/
theorem step_of_decode_ok {s t : State} {w : Word} {i : Instr} (h : s.fault = none)
    (hf : fetch s = .ok (w, t)) (hd : decode w = .ok i) : step s = .next (deliver (valueOf i) t) := by
  simp [step, stepBody, h, hf, hd, exec_eq_deliver]

/-- Everything a step can do. -/
theorem step_cases (s : State) :
    (∃ e, s.fault = some e ∧ step s = .fault e) ∨
    (s.fault = none ∧ ∃ e, fetch s = .error e ∧ step s = .next (raise e s)) ∨
    (s.fault = none ∧ ∃ w, fetch s = .ok (w, advance s w) ∧ formatOf (opcodeOf w) = none ∧
      step s = .next (raise (.unsupportedOpcode (opcodeOf w) s.pc) (advance s w))) ∨
    (s.fault = none ∧ ∃ w i, fetch s = .ok (w, advance s w) ∧ decode w = .ok i ∧
      step s = .next (deliver (valueOf i) (advance s w))) := by
  cases hs : s.fault with
  | some e => exact .inl ⟨e, rfl, step_of_fault hs⟩
  | none =>
    cases hf : fetch s with
    | error e => exact .inr (.inl ⟨rfl, e, rfl, step_of_fetch_error hs hf⟩)
    | ok p =>
      obtain ⟨w, t⟩ := p
      obtain ⟨-, rfl, rfl⟩ := (fetch_ok_iff s w t).mp hf
      cases hd : decode (wordAt s s.pc.toNat) with
      | error e =>
        obtain ⟨hn, rfl⟩ := (decode_error_iff _ e).mp hd
        exact .inr (.inr (.inl ⟨rfl, _, rfl, hn, step_of_decode_error hs hf hd⟩))
      | ok i => exact .inr (.inr (.inr ⟨rfl, _, i, rfl, hd, step_of_decode_ok hs hf hd⟩))

/-- No step is ever refused. -/
theorem step_not_refused (s : State) (r : Refusal) : step s ≠ .refused r := by
  rcases step_cases s with ⟨e, -, h⟩ | ⟨-, e, -, h⟩ | ⟨-, w, -, -, h⟩ | ⟨-, w, i, -, -, h⟩ <;> simp [h]

end Sys2Proof.Machine
end

