-- ==== Sys2Proof/Laws/Environment.lean ====
section
/-! SUPPORT. What one environment move can do, said once. -/

namespace Sys2Proof.Machine

/-- A request takes the step, or leaves a faulted state as it is. -/
theorem request_cases (s : State) :
    (∃ t, step s = .next t ∧ request s = t) ∨ (∃ e, s.fault = some e ∧ request s = s) := by
  rcases step_cases s with ⟨e, h0, h⟩ | ⟨-, e, -, h⟩ | ⟨-, w, -, -, h⟩ | ⟨-, w, i, -, -, h⟩
  · exact .inr ⟨e, h0, by simp [request, h]⟩
  all_goals exact .inl ⟨_, h, by simp [request, h]⟩

/-- Everything a move can do. -/
theorem applyMove_cases {m : Move} {s t : State} (h : applyMove m s = some t) :
    (∃ v, m = .writePc v ∧ t = { s with pc := v }) ∨
    (∃ a b, m = .writeByte a b ∧ a < s.params.memSize ∧ t = writeByte s a b) ∨
    (∃ i v, m = .writeReg i v ∧ t = writeReg s i v) ∨
    (m = .fetchReq ∧ t = request s) ∨
    (∃ r, m = .reset r ∧ t = State.construct s.params r) := by
  cases m with
  | writePc v => exact .inl ⟨v, rfl, by simpa [applyMove] using h.symm⟩
  | writeByte a b =>
    by_cases ha : a < s.params.memSize
    · exact .inr (.inl ⟨a, b, rfl, ha, by simpa [applyMove, ha] using h.symm⟩)
    · simp [applyMove, ha] at h
  | writeReg i v => exact .inr (.inr (.inl ⟨i, v, rfl, by simpa [applyMove] using h.symm⟩))
  | fetchReq => exact .inr (.inr (.inr (.inl ⟨rfl, by simpa [applyMove] using h.symm⟩)))
  | reset r => exact .inr (.inr (.inr (.inr ⟨r, rfl, by simpa [applyMove] using h.symm⟩)))

end Sys2Proof.Machine
end

