-- ==== Sys2Proof/Laws/PerInstr.lean ====
section
/-! SUPPORT. Facts about every instruction as syntax, one lemma per constructor (LAWS.json, `per_instruction`). -/

/-- The encoder writes the opcode of the instruction's format, and the classifier of R47 reads that format back. -/
def Sys2Proof.Laws.EncodedOpcode.Statement (i : Sys2Proof.Instr) : Prop :=
  Sys2Proof.opcodeOf (Sys2Proof.encode i) = i.format.opcode ∧
    Sys2Proof.formatOf (Sys2Proof.opcodeOf (Sys2Proof.encode i)) = some i.format

namespace Sys2Proof.Laws.EncodedOpcode

theorem decodeR (rd : RegIdx) (f3 : Funct3) (rs1 rs2 : RegIdx) (f7 : Funct7) :
    Statement (.decodeR rd f3 rs1 rs2 f7) := by
  have h : opcodeOf (encode (.decodeR rd f3 rs1 rs2 f7)) = 0x33#7 := opcodeOf_append _ _
  exact ⟨h, by rw [h]; rfl⟩

theorem decodeI (rd : RegIdx) (f3 : Funct3) (rs1 : RegIdx) (raw : BitVec 12) :
    Statement (.decodeI rd f3 rs1 raw) := by
  have h : opcodeOf (encode (.decodeI rd f3 rs1 raw)) = 0x13#7 := opcodeOf_append _ _
  exact ⟨h, by rw [h]; rfl⟩

theorem decodeS (f3 : Funct3) (rs1 rs2 : RegIdx) (raw : BitVec 12) : Statement (.decodeS f3 rs1 rs2 raw) := by
  have h : opcodeOf (encode (.decodeS f3 rs1 rs2 raw)) = 0x23#7 := opcodeOf_append _ _
  exact ⟨h, by rw [h]; rfl⟩

theorem decodeB (f3 : Funct3) (rs1 rs2 : RegIdx) (raw : BitVec 13) : Statement (.decodeB f3 rs1 rs2 raw) := by
  have h : opcodeOf (encode (.decodeB f3 rs1 rs2 raw)) = 0x63#7 := opcodeOf_append _ _
  exact ⟨h, by rw [h]; rfl⟩

theorem decodeU (rd : RegIdx) (raw : Word) : Statement (.decodeU rd raw) := by
  have h : opcodeOf (encode (.decodeU rd raw)) = 0x37#7 := opcodeOf_append _ _
  exact ⟨h, by rw [h]; rfl⟩

theorem decodeJ (rd : RegIdx) (raw : BitVec 21) : Statement (.decodeJ rd raw) := by
  have h : opcodeOf (encode (.decodeJ rd raw)) = 0x6F#7 := opcodeOf_append _ _
  exact ⟨h, by rw [h]; rfl⟩

end Sys2Proof.Laws.EncodedOpcode
end

