-- ==== Sys2Proof/Laws/Structure.lean ====
section
/-! SUPPORT. The reference structure's parts: an output's leg, and what the comparators answer. -/

namespace Sys2Proof.Machine

@[simp] theorem leg_true {α : Type} (v : α) : leg true v = some v := rfl
@[simp] theorem leg_false {α : Type} (v : α) : leg false v = none := rfl

/-- The comparator of a format's own opcode fires, and no other. -/
theorem comparators_opcode (f : Format) :
    comparators f.opcode = ⟨f = .r, f = .i, f = .s, f = .b, f = .u, f = .j⟩ := by cases f <;> decide

/-- No comparator fires for an unrecognised opcode. -/
theorem comparators_of_unrecognised {op : Opcode} (h : formatOf op = none) :
    comparators op = ⟨false, false, false, false, false, false⟩ := by
  have hne : ∀ f : Format, (op == f.opcode) = false := fun f =>
    beq_eq_false_iff_ne.mpr fun he => by rw [he, formatOf_opcode] at h; cases h
  exact congr (congr (congr (congr (congr (congrArg Match.mk (hne .r)) (hne .i)) (hne .s)) (hne .b)) (hne .u)) (hne .j)

end Sys2Proof.Machine
end

