-- ==== Sys2Proof/Tests/Slice0.lean ====
section
/-! SUPPORT. The model's own tests, with the expected values of spec/95_test_vectors.md (DV-*, P*), and a witness for the hypotheses
of every statement that has any. -/

namespace Sys2Proof.Tests

open Sys2Proof.Machine

/-! ## Helpers -/

/-- A freshly constructed machine with every register 0. -/
def machine (size : Nat) (fm : FetchMisaligned) (pc : Word) (bytes : Memory) : State :=
  State.construct ⟨size, fm, pc, bytes⟩ (Vector.replicate 32 0#32)

/-- The pc, the fault status and the deliveries after an outcome. -/
def seen : Host.Outcome State Fault Refusal → Option (Word × Option Fault × List Delivery)
  | .next t => some (t.pc, t.fault, t.delivered)
  | .fault _ => none
  | .refused _ => none

/-- The word a fetch returns and the pc it leaves. -/
def fetched (s : State) : Except Fault (Word × Word) := (fetch s).map fun p => (p.1, p.2.pc)

/-- `addi x1, x0, 10` at 0 (E11, DV-F1). -/
def addiBytes : Memory := [(0, 0x93#8), (2, 0xA0#8)]

/-! ## Well-formedness refuses each ill-formed term (R51, R52, R53) -/

theorem test_wf_refuses_odd_branch_offset : (Instr.decodeB 0#3 0#5 0#5 1#13).wf = false := by decide
theorem test_wf_refuses_low_upper_immediate : (Instr.decodeU 0#5 0x12345001#32).wf = false := by decide
theorem test_wf_refuses_odd_jump_offset : (Instr.decodeJ 0#5 0x1FFFFF#21).wf = false := by decide
theorem test_wf_accepts_every_other_field :
    (Instr.decodeR 31#5 7#3 31#5 31#5 127#7).wf = true ∧ (Instr.decodeI 31#5 7#3 31#5 0xFFF#12).wf = true ∧
    (Instr.decodeS 7#3 31#5 31#5 0xFFF#12).wf = true ∧ (Instr.decodeB 7#3 31#5 31#5 0x1FFE#13).wf = true ∧
    (Instr.decodeU 31#5 0xFFFFF000#32).wf = true ∧ (Instr.decodeJ 31#5 0x1FFFFE#21).wf = true := by decide

/-! ## Decoding: words written out bit by bit from the patterns of R48 to R53 -/

/-- R48: funct7 0100000, rs2 00010, rs1 00001, funct3 101, rd 00011. -/
theorem test_decodeR_bits : decode 0b0100000_00010_00001_101_00011_0110011#32
    = .ok (.decodeR 3#5 5#3 1#5 2#5 0b0100000#7) := by decide
/-- R49: imm[11:0] 100000000001, rs1 00010, funct3 110, rd 00111. -/
theorem test_decodeI_bits : decode 0b100000000001_00010_110_00111_0010011#32
    = .ok (.decodeI 7#5 6#3 2#5 0b100000000001#12) := by decide
/-- R50: imm[11:5] 1000001, rs2 00101, rs1 00010, funct3 010, imm[4:0] 11100. -/
theorem test_decodeS_bits : decode 0b1000001_00101_00010_010_11100_0100011#32
    = .ok (.decodeS 2#3 2#5 5#5 0b1000001_11100#12) := by decide
/-- R51: imm[12] 0, imm[10:5] 100000, rs2 00010, rs1 00001, funct3 001, imm[4:1] 0001, imm[11] 1. -/
theorem test_decodeB_bits : decode 0b0_100000_00010_00001_001_0001_1_1100011#32
    = .ok (.decodeB 1#3 1#5 2#5 0b0_1_100000_0001_0#13) := by decide
/-- R52: imm[31:12] 00010010001101000101, rd 11111. -/
theorem test_decodeU_bits : decode 0b00010010001101000101_11111_0110111#32
    = .ok (.decodeU 31#5 0b00010010001101000101_000000000000#32) := by decide
/-- R53: imm[20] 0, imm[10:1] 1000000001, imm[11] 1, imm[19:12] 00000010, rd 00001. -/
theorem test_decodeJ_bits : decode 0b0_1000000001_1_00000010_00001_1101111#32
    = .ok (.decodeJ 1#5 0b0_00000010_1_1000000001_0#21) := by decide

/-- DV-R1 to DV-R4. -/
theorem test_decodeR_vectors :
    decodeWord 0x00000033#32 = .ok (.r 0x33#7 0#5 0#5 0#5 0#3 0#7) ∧
    decodeWord 0x002081B3#32 = .ok (.r 0x33#7 3#5 1#5 2#5 0#3 0#7) ∧
    decodeWord 0x405282B3#32 = .ok (.r 0x33#7 5#5 5#5 5#5 0#3 32#7) ∧
    decodeWord 0xFFFFFFB3#32 = .ok (.r 0x33#7 31#5 31#5 31#5 7#3 127#7) := by decide
/-- DV-I1 to DV-I7; DV-I1 is E5 as corrected by C1. -/
theorem test_decodeI_vectors :
    decodeWord 0x00A00093#32 = .ok (.i 0x13#7 1#5 0#5 0#3 0x0000000A#32) ∧
    decodeWord 0xFFF00093#32 = .ok (.i 0x13#7 1#5 0#5 0#3 0xFFFFFFFF#32) ∧
    decodeWord 0x7FF00093#32 = .ok (.i 0x13#7 1#5 0#5 0#3 0x000007FF#32) ∧
    decodeWord 0x80000093#32 = .ok (.i 0x13#7 1#5 0#5 0#3 0xFFFFF800#32) ∧
    decodeWord 0x4010D093#32 = .ok (.i 0x13#7 1#5 1#5 5#3 0x00000401#32) ∧
    decodeWord 0xFFFFFF93#32 = .ok (.i 0x13#7 31#5 31#5 7#3 0xFFFFFFFF#32) ∧
    decodeWord 0x00000013#32 = .ok (.i 0x13#7 0#5 0#5 0#3 0#32) := by decide
/-- DV-S1 to DV-S7. -/
theorem test_decodeS_vectors :
    decodeWord 0x0020A423#32 = .ok (.s 0x23#7 1#5 2#5 2#3 8#32) ∧
    decodeWord 0xFFFFFFA3#32 = .ok (.s 0x23#7 31#5 31#5 7#3 0xFFFFFFFF#32) ∧
    decodeWord 0x7E000FA3#32 = .ok (.s 0x23#7 0#5 0#5 0#3 0x000007FF#32) ∧
    decodeWord 0x80000023#32 = .ok (.s 0x23#7 0#5 0#5 0#3 0xFFFFF800#32) ∧
    decodeWord 0x00000FA3#32 = .ok (.s 0x23#7 0#5 0#5 0#3 0x0000001F#32) ∧
    decodeWord 0xFE000023#32 = .ok (.s 0x23#7 0#5 0#5 0#3 0xFFFFFFE0#32) ∧
    decodeWord 0xFE512E23#32 = .ok (.s 0x23#7 2#5 5#5 2#3 0xFFFFFFFC#32) := by decide
/-- DV-B1 to DV-B7. -/
theorem test_decodeB_vectors :
    decodeWord 0x00208463#32 = .ok (.b 0x63#7 1#5 2#5 0#3 8#32) ∧
    decodeWord 0xFE000EE3#32 = .ok (.b 0x63#7 0#5 0#5 0#3 0xFFFFFFFC#32) ∧
    decodeWord 0xFFFFFFE3#32 = .ok (.b 0x63#7 31#5 31#5 7#3 0xFFFFFFFE#32) ∧
    decodeWord 0x000000E3#32 = .ok (.b 0x63#7 0#5 0#5 0#3 0x00000800#32) ∧
    decodeWord 0x80000063#32 = .ok (.b 0x63#7 0#5 0#5 0#3 0xFFFFF000#32) ∧
    decodeWord 0x7E000FE3#32 = .ok (.b 0x63#7 0#5 0#5 0#3 0x00000FFE#32) ∧
    decodeWord 0x00001163#32 = .ok (.b 0x63#7 0#5 0#5 1#3 2#32) := by decide
/-- DV-U1 to DV-U5. -/
theorem test_decodeU_vectors :
    decodeWord 0x123452B7#32 = .ok (.u 0x37#7 5#5 0x12345000#32) ∧
    decodeWord 0xFFFFF0B7#32 = .ok (.u 0x37#7 1#5 0xFFFFF000#32) ∧
    decodeWord 0x00000037#32 = .ok (.u 0x37#7 0#5 0#32) ∧
    decodeWord 0xFF000637#32 = .ok (.u 0x37#7 12#5 0xFF000000#32) ∧
    decodeWord 0x12345FB7#32 = .ok (.u 0x37#7 31#5 0x12345000#32) := by decide
/-- DV-J1 to DV-J7. -/
theorem test_decodeJ_vectors :
    decodeWord 0x008000EF#32 = .ok (.j 0x6F#7 1#5 8#32) ∧
    decodeWord 0xFFDFF06F#32 = .ok (.j 0x6F#7 0#5 0xFFFFFFFC#32) ∧
    decodeWord 0xFFFFFFEF#32 = .ok (.j 0x6F#7 31#5 0xFFFFFFFE#32) ∧
    decodeWord 0x0010006F#32 = .ok (.j 0x6F#7 0#5 0x00000800#32) ∧
    decodeWord 0x7FFFF06F#32 = .ok (.j 0x6F#7 0#5 0x000FFFFE#32) ∧
    decodeWord 0x8000006F#32 = .ok (.j 0x6F#7 0#5 0xFFF00000#32) ∧
    decodeWord 0x0020006F#32 = .ok (.j 0x6F#7 0#5 2#32) := by decide
/-- DV-X1 to DV-X10. -/
theorem test_unsupported_vectors :
    decode 0x00000000#32 = .error (.unsupportedOpcode 0x00#7) ∧ decode 0xFFFFFFFF#32 = .error (.unsupportedOpcode 0x7F#7) ∧
    decode 0x0000A083#32 = .error (.unsupportedOpcode 0x03#7) ∧ decode 0x000080E7#32 = .error (.unsupportedOpcode 0x67#7) ∧
    decode 0x00000097#32 = .error (.unsupportedOpcode 0x17#7) ∧ decode 0x00000073#32 = .error (.unsupportedOpcode 0x73#7) ∧
    decode 0x0FF0000F#32 = .error (.unsupportedOpcode 0x0F#7) ∧ decode 0x00000001#32 = .error (.unsupportedOpcode 0x01#7) ∧
    decode 0x0000002F#32 = .error (.unsupportedOpcode 0x2F#7) ∧ decode 0x001300A0#32 = .error (.unsupportedOpcode 0x20#7) := by
  decide
/-- The words of DV-R3, DV-I5, DV-S7, DV-B2, DV-U1 and DV-J2, from their fields. -/
theorem test_encode_vectors :
    encode (.decodeR 5#5 0#3 5#5 5#5 32#7) = 0x405282B3#32 ∧ encode (.decodeI 1#5 5#3 1#5 0x401#12) = 0x4010D093#32 ∧
    encode (.decodeS 2#3 2#5 5#5 0xFFC#12) = 0xFE512E23#32 ∧ encode (.decodeB 0#3 0#5 0#5 0x1FFC#13) = 0xFE000EE3#32 ∧
    encode (.decodeU 5#5 0x12345000#32) = 0x123452B7#32 ∧ encode (.decodeJ 0#5 0x1FFFFC#21) = 0xFFDFF06F#32 := by decide
theorem test_table_word_is_decoded : decodeTableWord 32 0x008000EF = some (.decodeJ 1#5 8#21) := by decide
theorem test_immediate_meanings :
    (DecodedInstruction.u 0x37#7 1#5 0xFFFFF000#32).immMeaning? = some 4294963200 ∧
    (DecodedInstruction.b 0x63#7 0#5 0#5 0#3 0xFFFFF000#32).immMeaning? = some (-4096) := by decide

/-! ## Fetching (DV-F1 to DV-F14) -/

theorem test_fetch_little_endian :
    fetched (machine 1048576 .fault 0#32 addiBytes) = .ok (0x00A00093#32, 4#32) ∧
    fetched (machine 1048576 .fault 0x10#32 [(0x10, 0x78#8), (0x11, 0x56#8), (0x12, 0x34#8), (0x13, 0x12#8)])
      = .ok (0x12345678#32, 0x14#32) := by decide
/-- DV-F3 to DV-F6, DV-F14. -/
theorem test_fetch_bounds :
    fetched (machine 16 .fault 12#32 [(15, 0xAA#8)]) = .ok (0xAA000000#32, 16#32) ∧
    fetched (machine 16 .fault 16#32 []) = .error (.outOfBounds 16#32) ∧
    fetched (machine 15 .fault 12#32 []) = .error (.outOfBounds 12#32) ∧
    fetched (machine 0 .fault 0#32 []) = .error (.outOfBounds 0#32) ∧
    fetched (machine 16 .fault 0#32 []) = .ok (0#32, 4#32) := by decide
/-- DV-F7 to DV-F10. -/
theorem test_fetch_alignment :
    fetched (machine 16 .fault 2#32 []) = .error (.misalignedFetch 2#32) ∧
    fetched (machine 16 .readBytes 2#32 [(2, 0x11#8), (3, 0x22#8), (4, 0x33#8), (5, 0x44#8)])
      = .ok (0x44332211#32, 6#32) ∧
    fetched (machine 16 .fault 14#32 []) = .error (.misalignedFetch 14#32) ∧
    fetched (machine 16 .readBytes 14#32 []) = .error (.outOfBounds 14#32) := by decide
/-- DV-F11 to DV-F13. -/
theorem test_fetch_top_of_memory :
    fetched (machine (2 ^ 32) .fault 0xFFFFFFFC#32
      [(0xFFFFFFFC, 0xEF#8), (0xFFFFFFFD, 0xBE#8), (0xFFFFFFFE, 0xAD#8), (0xFFFFFFFF, 0xDE#8)])
      = .ok (0xDEADBEEF#32, 0#32) ∧
    fetched (machine (2 ^ 32) .readBytes 0xFFFFFFFD#32 []) = .error (.outOfBounds 0xFFFFFFFD#32) ∧
    fetched (machine 1048576 .fault 0xFFFFFFFC#32 []) = .error (.outOfBounds 0xFFFFFFFC#32) := by decide

/-! ## Steps, the environment, the ports -/

/-- DV-ST1. -/
theorem test_step_delivers : seen (step (machine 16 .fault 0#32 [(0, 0x13#8)]))
    = some (4#32, none, [⟨0#32, 0x13#32, .i 0x13#7 0#5 0#5 0#3 0#32⟩]) := by decide
/-- DV-ST2 and DV-ST4. -/
theorem test_step_unsupported :
    seen (step (machine 16 .fault 0#32 [])) = some (4#32, some (.unsupportedOpcode 0#7 0#32), []) ∧
    request (request (machine 16 .fault 0#32 [])) = request (machine 16 .fault 0#32 []) := by decide
/-- DV-ST3. -/
theorem test_step_out_of_bounds :
    seen (step (machine 16 .fault 16#32 [])) = some (16#32, some (.outOfBounds 16#32), []) := by decide
/-- P4: an environment-written misaligned pc, under Fault. -/
theorem test_moves_misaligned_pc :
    (applyMoves [.fetchReq, .writePc 6#32, .fetchReq] (machine 12 .fault 0#32 [(0, 0x13#8)])).map
      (fun t => (t.pc, t.fault, t.delivered.length)) = some (6#32, some (.misalignedFetch 6#32), 1) := by decide
theorem test_moves_write_outside_memory : applyMove (.writeByte 16 1#8) (machine 16 .fault 0#32 []) = none := by decide
theorem test_moves_write_is_fetched :
    (applyMoves [.writeByte 0 0x37#8, .writeReg 0#5 9#32, .fetchReq] (machine 16 .fault 0#32 [(0, 0x13#8)])).map
      (fun t => (readReg t 0#5, t.delivered)) = some (9#32, [⟨0#32, 0x37#32, .u 0x37#7 0#5 0#32⟩]) := by decide
theorem test_write_keeps_canonical_form :
    Memory.write (Memory.write [(1, 5#8), (3, 6#8)] 2 7#8) 3 0#8 = [(1, 5#8), (2, 7#8)] := by decide
theorem test_ports_of_store_word :
    (ports (request (machine 16 .fault 0#32 [(0, 0x23#8), (1, 0xA4#8), (2, 0x20#8)]))).imm = some 8#32 ∧
    (ports (request (machine 16 .fault 0#32 [(0, 0x23#8), (1, 0xA4#8), (2, 0x20#8)]))).rd = none := by decide
/-- DV-B3, and DV-X2: while `dec_err` is 1 the opcode is on `dec_err_opcode` alone. -/
theorem test_reference_structure :
    (wires 0xFFFFFFE3#32).imm = some 0xFFFFFFFE#32 ∧ (wires 0xFFFFFFE3#32).rd = none ∧
    wires 0xFFFFFFFF#32 = ⟨none, none, none, none, none, none, none, none, true, some 0x7F#7⟩ := by decide
theorem test_reset_runs_placed_word : seen (step (State.reset.withFetchWord 32 0xFE512E23))
    = some (4#32, none, [⟨0#32, 0xFE512E23#32, .s 0x23#7 2#5 5#5 2#3 0xFFFFFFFC#32⟩]) := by decide

/-! ## Witnesses: for every statement with hypotheses, a state and operands that meet them all -/

/-- A machine about to run `addi x1, x0, 10`. -/
def running : State := machine 16 .fault 0#32 addiBytes

/-- A machine about to meet the illegal all-zero word. -/
def illegal : State := machine 16 .fault 0#32 []

/-- A machine with a fault recorded. -/
def stopped : State := request illegal

theorem running_fetchable : Fetchable running := ⟨fun _ => by decide, by decide⟩

theorem running_inv : Inv running where
  params := ⟨by decide, by decide, by decide⟩
  memWf := by decide
  memWithin := by decide
  fault := fun _ h => nomatch h
  delivered := fun _ h => nomatch h

theorem witness_DecodeRDeliversTheRegisterFields : (0x405282B3#32).extractLsb' 0 7 = 0x33#7 := by decide
theorem witness_DecodeIDeliversTheSignExtendedImmediate : (0x80000093#32).extractLsb' 0 7 = 0x13#7 := by decide
theorem witness_DecodeSDeliversTheSplitImmediate : (0xFE000023#32).extractLsb' 0 7 = 0x23#7 := by decide
theorem witness_DecodeBDeliversTheBranchOffset : (0x80000063#32).extractLsb' 0 7 = 0x63#7 := by decide
theorem witness_DecodeUDeliversTheUpperImmediate : (0x12345FB7#32).extractLsb' 0 7 = 0x37#7 := by decide
theorem witness_DecodeJDeliversTheJumpOffset : (0x0010006F#32).extractLsb' 0 7 = 0x6F#7 := by decide
/-- One word for each clause, each with the sign bit of its immediate (or its top bit) set. -/
theorem witness_FormatDecodersReturnTheirVariants :
    (0xFFFFFFB3#32).extractLsb' 0 7 = 0x33#7 ∧ (0x80000093#32).extractLsb' 0 7 = 0x13#7 ∧
    (0x80000023#32).extractLsb' 0 7 = 0x23#7 ∧ (0x80000063#32).extractLsb' 0 7 = 0x63#7 ∧
    (0xFFFFF0B7#32).extractLsb' 0 7 = 0x37#7 ∧ (0x8000006F#32).extractLsb' 0 7 = 0x6F#7 := by decide

/-- The second clause: two different words with one opcode. -/
theorem witness_OnlyTheOpcodeSelectsTheFormat :
    (0xFFFFFFB3#32 : Word) &&& 0x7F#32 = 0x00000033#32 &&& 0x7F#32 := by decide
theorem witness_UnrecognisedOpcodeIsCarriedExactly :
    (0x00000032#32).extractLsb' 0 7 ∉ [0x33#7, 0x13#7, 0x23#7, 0x63#7, 0x37#7, 0x6F#7] ∧
    (0x0F#7 : Opcode) ∈ [0x03#7, 0x67#7, 0x17#7, 0x73#7, 0x0F#7] := by decide
theorem witness_IllegalEncodingsAreCounted : (0xFFFFFFFE#32).extractLsb' 0 2 ≠ 0b11#2 := by decide

/-- Clause (a), and one word of each format for clauses (b) to (d), each with the sign bit of its immediate set. -/
theorem witness_DecodedImmediateLaws :
    (0x00000033#32).extractLsb' 0 7 = Format.r.opcode ∧
    (decodeWord 0x80000093#32).map (·.imm?) = .ok (some 0xFFFFF800#32) ∧
    (decodeWord 0x80000023#32).map (·.imm?) = .ok (some 0xFFFFF800#32) ∧
    (decodeWord 0x80000063#32).map (·.imm?) = .ok (some 0xFFFFF000#32) ∧
    (decodeWord 0x80000037#32).map (·.imm?) = .ok (some 0x80000000#32) ∧
    (decodeWord 0x8000006F#32).map (·.imm?) = .ok (some 0xFFF00000#32) := by decide
theorem witness_DecodedFieldsAreMaskedSlices :
    decodeWord 0xFFFFFFB3#32 = .ok (.r 0x33#7 31#5 31#5 31#5 7#3 127#7) := by decide
/-- The least and the greatest value of each format. -/
theorem witness_ImmediateMeaningsStayInRange :
    (decodeWord 0x80000093#32).map (·.immMeaning?) = .ok (some (-2048)) ∧
    (decodeWord 0x7FF00093#32).map (·.immMeaning?) = .ok (some 2047) ∧
    (decodeWord 0x80000023#32).map (·.immMeaning?) = .ok (some (-2048)) ∧
    (decodeWord 0x7E000FA3#32).map (·.immMeaning?) = .ok (some 2047) ∧
    (decodeWord 0x80000063#32).map (·.immMeaning?) = .ok (some (-4096)) ∧
    (decodeWord 0x7E000FE3#32).map (·.immMeaning?) = .ok (some 4094) ∧
    (decodeWord 0x00000037#32).map (·.immMeaning?) = .ok (some 0) ∧
    (decodeWord 0xFFFFF0B7#32).map (·.immMeaning?) = .ok (some 4294963200) ∧
    (decodeWord 0x8000006F#32).map (·.immMeaning?) = .ok (some (-1048576)) ∧
    (decodeWord 0x7FFFF06F#32).map (·.immMeaning?) = .ok (some 1048574) := by decide
theorem witness_DecodeOfEncodeIsTheInstruction : (Instr.decodeJ 31#5 0x1FFFFE#21).WellFormed := by decide
theorem witness_EncodeOfDecodeIsTheWord : decode 0xFFFFFFE3#32 = .ok (.decodeB 7#3 31#5 31#5 0x1FFE#13) := by decide

theorem witness_FetchAssemblesLittleEndian : Fetchable running ∧
    memByte running running.pc.toNat = some 0x93#8 ∧ memByte running (running.pc.toNat + 1) = some 0x00#8 ∧
    memByte running (running.pc.toNat + 2) = some 0xA0#8 ∧ memByte running (running.pc.toNat + 3) = some 0x00#8 :=
  ⟨running_fetchable, by decide⟩
/-- The last word of memory is fetchable, and under ReadBytes a misaligned pc is. -/
theorem witness_FetchWritesOnlyThePc :
    Fetchable (machine 16 .fault 12#32 []) ∧ Fetchable (machine 16 .readBytes 11#32 []) :=
  ⟨⟨fun _ => by decide, by decide⟩, ⟨fun h => (by cases h), by decide⟩⟩
/-- Both errors, at the boundary where the two checks meet and just past the last word. -/
theorem witness_FetchRaisesExactlyTheseErrors :
    fetch (machine 16 .fault 14#32 []) = .error (.misalignedFetch 14#32) ∧
    fetch (machine 16 .readBytes 13#32 []) = .error (.outOfBounds 13#32) := ⟨rfl, rfl⟩
/-- Both clauses, the first where the bounds check would fail too, the second just past the last word. -/
theorem witness_FetchErrorIsRecordedAndPcKept :
    ((machine 16 .fault 14#32 []).fault = none ∧ (machine 16 .fault 14#32 []).params.fetchMisaligned = .fault ∧
      (machine 16 .fault 14#32 []).pc.toNat % 4 ≠ 0) ∧
    ((machine 15 .fault 12#32 []).fault = none ∧ (machine 15 .fault 12#32 []).pc.toNat % 4 = 0 ∧
      (machine 15 .fault 12#32 []).params.memSize ≤ (machine 15 .fault 12#32 []).pc.toNat + 3) := by decide
theorem witness_StepAdvancesPcByFourWhateverTheWord :
    (running.fault = none ∧ Fetchable running) ∧
    ((machine 15 .fault 12#32 []).fault = none ∧ ¬ Fetchable (machine 15 .fault 12#32 [])) :=
  ⟨⟨rfl, running_fetchable⟩, rfl, fun h => absurd h.2 (by decide)⟩
theorem witness_PcWrapsOnlyAtTheTopOfAFullMemory :
    ∃ s t, s.params.memSize ≤ 2 ^ 32 ∧ step s = .next t ∧ t.pc.toNat < s.pc.toNat :=
  ⟨machine (2 ^ 32) .fault 0xFFFFFFFC#32 [], _, by decide, rfl, by decide⟩
theorem witness_StepKeepsPcAlignment : ∃ t, step running = .next t := ⟨_, rfl⟩

theorem witness_StepRunsTheDecodedInstruction :
    running.fault = none ∧ Fetchable running ∧ (Instr.decodeI 1#5 0#3 0#5 10#12).WellFormed ∧
    decode (wordAt running running.pc.toNat) = .ok (.decodeI 1#5 0#3 0#5 10#12) :=
  ⟨rfl, running_fetchable, by decide, by decide⟩
theorem witness_SuccessfulStepDeliversTheDecodedValue :
    running.fault = none ∧ Fetchable running ∧
    decodeWord (wordAt running running.pc.toNat) = .ok (.i 0x13#7 1#5 0#5 0#3 10#32) :=
  ⟨rfl, running_fetchable, by decide⟩
theorem witness_UnsupportedOpcodeIsRecordedAfterTheAdvance :
    illegal.fault = none ∧ Fetchable illegal ∧
    decodeWord (wordAt illegal illegal.pc.toNat) = .error (.unsupportedOpcode 0#7) :=
  ⟨rfl, ⟨fun _ => by decide, by decide⟩, by decide⟩
theorem witness_FaultedCoreTakesNoStep : stopped.fault = some (.unsupportedOpcode 0#7 0#32) := by decide
theorem witness_EveryStepDeliversOrRecordsAnError : running.fault = none := rfl
theorem witness_StepNeverWritesMemory : ∃ t, step running = .next t := ⟨_, rfl⟩
/-- Two states that differ in a byte that is not fetched, a register, a port and the deliveries. -/
theorem witness_StepReadsOnlyTheFetchedBytes :
    ∃ s' t, s' ≠ running ∧ s'.params = running.params ∧ s'.pc = running.pc ∧ s'.fault = running.fault ∧
      (∀ a ∈ fetchReads running, memByte s' a = memByte running a) ∧ step running = .next t :=
  ⟨{ writeReg (writeByte running 9 1#8) 1#5 7#32 with raw := 5#32, delivered := [⟨0#32, 0#32, .u 0x37#7 0#5 0#32⟩] }, _,
    by decide, rfl, rfl, rfl, by decide, rfl⟩
theorem witness_RunWithoutMovesFallsThrough :
    ∃ t, runSteps 2 (machine 16 .fault 0#32 [(0, 0xE3#8), (1, 0x0E#8), (3, 0xFE#8), (4, 0xEF#8), (6, 0x80#8)])
      = .next t ∧ t.fault = none := ⟨_, rfl, rfl⟩
/-- Each of the three clauses. -/
theorem witness_PortsShowTheResultOfTheStep :
    (running.fault = none ∧ Fetchable running ∧
      decodeWord (wordAt running running.pc.toNat) = .ok (.i 0x13#7 1#5 0#5 0#3 10#32)) ∧
    (illegal.fault = none ∧ Fetchable illegal ∧
      decodeWord (wordAt illegal illegal.pc.toNat) = .error (.unsupportedOpcode 0#7)) ∧
    ((machine 16 .fault 14#32 []).fault = none ∧ ¬ Fetchable (machine 16 .fault 14#32 [])) :=
  ⟨witness_SuccessfulStepDeliversTheDecodedValue, witness_UnsupportedOpcodeIsRecordedAfterTheAdvance, rfl,
    fun h => absurd h.2 (by decide)⟩

theorem witness_ConstructionMeetsTheInvariant : (⟨16, .readBytes, 4#32, addiBytes⟩ : Params).Ok :=
  ⟨by decide, by decide, by decide⟩
theorem witness_StepKeepsTheInvariant : Inv running ∧ ∃ t, step running = .next t := ⟨running_inv, _, rfl⟩
theorem witness_EnvironmentMovesKeepTheInvariant :
    Inv running ∧ ∃ t, applyMoves [.fetchReq, .writeByte 15 1#8, .writePc 3#32, .fetchReq,
      .reset (Vector.replicate 32 1#32)] running = some t := ⟨running_inv, _, rfl⟩
theorem witness_OnlyResetClearsTheFault :
    stopped.fault = some (.unsupportedOpcode 0#7 0#32) ∧
    (∃ t, applyMoves [.writePc 0#32, .writeByte 0 0x13#8, .fetchReq] stopped = some t) ∧
    (∀ r, Move.reset r ∉ [Move.writePc 0#32, .writeByte 0 0x13#8, .fetchReq]) :=
  ⟨by decide, ⟨_, rfl⟩, by simp⟩
theorem witness_WrittenBytesAreFetchedNext : Inv running ∧ Fetchable running := ⟨running_inv, running_fetchable⟩
/-- Both ways of starting, each at the last word of memory. -/
theorem witness_BootedCoreFetchesItsFirstWord :
    (machine 16 .fault 12#32 [] = State.construct ⟨16, .fault, 12#32, []⟩ (Vector.replicate 32 0#32) ∧
      (12#32 : Word).toNat % 4 = 0 ∧ (12#32 : Word).toNat + 3 < 16) ∧
    (∃ s, applyMove (.writePc 12#32) (State.construct ⟨16, .fault, 2#32, []⟩ (Vector.replicate 32 0#32)) = some s) :=
  ⟨⟨rfl, by decide, by decide⟩, _, rfl⟩
theorem witness_PlacedWordRunsNext :
    Inv running ∧ Fetchable running ∧ decode 0xFFFFFFE3#32 = .ok (.decodeB 7#3 31#5 31#5 0x1FFE#13) :=
  ⟨running_inv, running_fetchable, by decide⟩
theorem witness_InstancesShareNoState :
    ∃ after, applyMoveAt 1 .fetchReq [illegal, running, illegal] = some after := ⟨_, rfl⟩
theorem witness_MemoriesThatReadAlikeAreEqual : Memory.wf [(0, 0x93#8), (2, 0xA0#8)] = true := by decide

end Sys2Proof.Tests
end

section
/-! SUPPORT. What DECODE delivers for a word, given its opcode (R47, R71, R78), and the spec's vectors as instances of it. -/

namespace Sys2Proof.Machine

/-- A word with the opcode of format `f` decodes to the value of the instruction that `f` reads from it. -/
theorem decodeWord_of_opcode {w : Word} (f : Format) (h : opcodeOf w = f.opcode) :
    decodeWord w = .ok (valueOf (instrOf f w)) :=
  decodeWord_of_decode ((decode_ok_iff w _).mpr ⟨f, h, rfl⟩)

/-- A word whose opcode is outside the six is rejected with that opcode. -/
theorem decodeWord_of_unrecognised {w : Word} (h : formatOf (opcodeOf w) = none) :
    decodeWord w = .error (.unsupportedOpcode (opcodeOf w)) := by
  have hd : decode w = .error (.unsupportedOpcode (opcodeOf w)) := (decode_error_iff w _).mpr ⟨h, rfl⟩
  simp [decodeWord, hd, Except.map]

/-- Settles O1: each vector's opcode selects its format, whose fields and immediate are then computed; DV-X3's opcode
selects none. -/
theorem specVectorsDecodeAsWritten : Obligations.SpecVectorsDecodeAsWritten := by
  unfold Obligations.SpecVectorsDecodeAsWritten
  refine ⟨?dvR3, ?dvI1, ?dvS7, ?dvB1, ?dvU5, ?dvJ1, ?dvX3⟩
  case dvR3 => exact (decodeWord_of_opcode .r (by decide)).trans (by decide)
  case dvI1 => exact (decodeWord_of_opcode .i (by decide)).trans (by decide)
  case dvS7 => exact (decodeWord_of_opcode .s (by decide)).trans (by decide)
  case dvB1 => exact (decodeWord_of_opcode .b (by decide)).trans (by decide)
  case dvU5 => exact (decodeWord_of_opcode .u (by decide)).trans (by decide)
  case dvJ1 => exact (decodeWord_of_opcode .j (by decide)).trans (by decide)
  case dvX3 => exact decodeWord_of_unrecognised (by decide)

end Sys2Proof.Machine
end

section
/-! SUPPORT. The bytes of a fetched word and their little-endian order (spec/20_memory.md R32). -/

namespace Sys2Proof

/-- R32's form: byte `k` of four stands at bit `8 * k` of the word. -/
theorem wordOfBytes_eq_shifted_or (b0 b1 b2 b3 : Byte) :
    wordOfBytes b0 b1 b2 b3 =
      b0.zeroExtend 32 ||| (b1.zeroExtend 32 <<< 8) ||| (b2.zeroExtend 32 <<< 16) ||| (b3.zeroExtend 32 <<< 24) := by
  have hor : wordOfBytes b0 b1 b2 b3 =
      b3.setWidth 32 <<< 24 ||| b2.setWidth 32 <<< 16 ||| b1.setWidth 32 <<< 8 ||| b0.setWidth 32 := by
    rw [← BitVec.setWidth_eq (wordOfBytes b0 b1 b2 b3)]
    exact BitVec.setWidth_append_append_append_eq_shiftLeft_setWidth_or
  simp only [hor, BitVec.or_assoc, BitVec.or_comm]

/-- Cutting a word put together from four bytes gives them back, the one at the lowest address first. -/
theorem byteOfWord_wordOfBytes (b0 b1 b2 b3 : Byte) :
    byteOfWord (wordOfBytes b0 b1 b2 b3) 0 = b0 ∧ byteOfWord (wordOfBytes b0 b1 b2 b3) 1 = b1 ∧
    byteOfWord (wordOfBytes b0 b1 b2 b3) 2 = b2 ∧ byteOfWord (wordOfBytes b0 b1 b2 b3) 3 = b3 := by
  refine ⟨extract_right _ _, ?_, ?_, ?_⟩
  · exact (extract_append_left _ _ 8 8 (by decide)).trans (extract_right _ _)
  · exact (extract_append_left _ _ 16 8 (by decide)).trans
      ((extract_append_left _ _ 8 8 (by decide)).trans (extract_right _ _))
  · exact (extract_append_left _ _ 24 8 (by decide)).trans
      ((extract_append_left _ _ 16 8 (by decide)).trans
        ((extract_append_left _ _ 8 8 (by decide)).trans (extract_all b3)))

end Sys2Proof

namespace Sys2Proof.Machine

/-- The word at an address, from the four bytes memory holds there. -/
theorem wordAt_of_memByte {s : State} {a : Nat} {b0 b1 b2 b3 : Byte} (h0 : memByte s a = some b0)
    (h1 : memByte s (a + 1) = some b1) (h2 : memByte s (a + 2) = some b2) (h3 : memByte s (a + 3) = some b3) :
    wordAt s a = wordOfBytes b0 b1 b2 b3 := by
  rw [wordAt, read_of_memByte h0, read_of_memByte h1, read_of_memByte h2, read_of_memByte h3]

/-- Settles O21: the fetched word is `wordOfBytes` of the four bytes, which is the shifted OR and is cut back into them. -/
theorem fetchAssemblesLittleEndian : Obligations.FetchAssemblesLittleEndian := by
  unfold Obligations.FetchAssemblesLittleEndian
  intro s b0 b1 b2 b3 hs h0 h1 h2 h3
  have hw : wordAt s s.pc.toNat = wordOfBytes b0 b1 b2 b3 := wordAt_of_memByte h0 h1 h2 h3
  refine ⟨_, _, fetch_of_fetchable hs, ?_⟩
  rw [hw]
  exact ⟨wordOfBytes_eq_shifted_or b0 b1 b2 b3, byteOfWord_wordOfBytes b0 b1 b2 b3⟩

end Sys2Proof.Machine
end

section
/-! SUPPORT. What no step writes: memory, the register file of the context and the parameters (R18, R35, R88). -/

namespace Sys2Proof.Machine

/-- Of two states: the same memory contents, the same register file and the same parameters. -/
structure SameContext (s t : State) : Prop where
  params : t.params = s.params
  mem : t.mem = s.mem
  regs : t.regs = s.regs

/-- A step that answers a next state leaves the context as it was. -/
theorem step_keeps_context {s t : State} (h : step s = .next t) : SameContext s t := by
  rcases step_cases s with ⟨e, -, hstep⟩ | ⟨-, e, -, hstep⟩ | ⟨-, w, -, -, hstep⟩ | ⟨-, w, i, -, -, hstep⟩
  all_goals rw [hstep] at h
  case inl => cases h
  all_goals
    cases h
    exact ⟨rfl, rfl, rfl⟩

/-- Every byte reads as before where the contents and the capacity are as before. -/
theorem SameContext.memByte_eq {s t : State} (h : SameContext s t) (a : Nat) : memByte t a = memByte s a := by
  simp only [memByte, h.mem, h.params]

/-- Every register reads as before where the register file is as before. -/
theorem SameContext.readReg_eq {s t : State} (h : SameContext s t) (r : RegIdx) : readReg t r = readReg s r := by
  simp only [readReg, h.regs]

/-- Settles O33: of everything a step can do, nothing touches the context. -/
theorem stepNeverWritesMemory : Obligations.StepNeverWritesMemory := by
  unfold Obligations.StepNeverWritesMemory
  intro s t h
  have hctx : SameContext s t := step_keeps_context h
  exact ⟨hctx.memByte_eq, hctx.mem, hctx.readReg_eq, hctx.params⟩

end Sys2Proof.Machine
end

section
/-! SUPPORT. The format DECODE chooses is the opcode map's answer for `word[6:0]`, and nothing else of the word (R46, R47). -/

namespace Sys2Proof

/-- The opcode field is what the mask `0x7F` leaves of a word. -/
theorem opcodeOf_and_mask (w : Word) : opcodeOf (w &&& 0x7F#32) = opcodeOf w := by
  have hmask : (0x7F#32).extractLsb' 0 7 = BitVec.allOnes 7 := by decide
  simp only [opcodeOf, slice, BitVec.extractLsb'_and, hmask, BitVec.and_allOnes]

/-- The opcode map as the chain of exact matches of R47, for an answer `f` to a format and `e` to none. -/
theorem formatOf_elim {α : Type} (op : Opcode) (e : α) (f : Format → α) : (formatOf op).elim e f =
    if op = 0x33#7 then f .r
    else if op = 0x13#7 then f .i
    else if op = 0x23#7 then f .s
    else if op = 0x63#7 then f .b
    else if op = 0x37#7 then f .u
    else if op = 0x6F#7 then f .j
    else e := by
  have elim_ite (c : Prop) [Decidable c] (a b : Option Format) :
      (if c then a else b).elim e f = if c then a.elim e f else b.elim e f := apply_ite (Option.elim · e f) c a b
  simp only [formatOf, elim_ite, Option.elim_some, Option.elim_none]

end Sys2Proof

namespace Sys2Proof.Machine

/-- The format of the decoded value, or the error, as a function of the opcode alone. -/
theorem decodeWord_map_format (w : Word) : (decodeWord w).map DecodedInstruction.format =
    (formatOf (opcodeOf w)).elim (.error (.unsupportedOpcode (opcodeOf w))) .ok := by
  cases h : formatOf (opcodeOf w) with
  | none => rw [decodeWord_of_unrecognised h]; rfl
  | some f =>
    rw [decodeWord_of_opcode f ((formatOf_eq_some_iff _ f).mp h)]
    simp [Except.map]

/-- Settles O10: the format is the opcode map's answer, and words that agree under the mask have one opcode. -/
theorem onlyTheOpcodeSelectsTheFormat : Obligations.OnlyTheOpcodeSelectsTheFormat := by
  unfold Obligations.OnlyTheOpcodeSelectsTheFormat
  refine ⟨fun w => ?map, fun w v hmask => ?sameOpcode⟩
  case map =>
    rw [decodeWord_map_format, formatOf_elim]
    rfl
  case sameOpcode =>
    have hop : opcodeOf w = opcodeOf v := by rw [← opcodeOf_and_mask w, hmask, opcodeOf_and_mask]
    rw [decodeWord_map_format, decodeWord_map_format, hop]

end Sys2Proof.Machine
end

section
/-! SUPPORT. The sign-extension stage as two's complement extension, at every logical width (R12, R60). -/

namespace Sys2Proof.Machine

/-- The mask form is two's complement extension: the mask sets exactly the bits from the raw width on, and is used exactly
where the sign bit is 1. -/
theorem signext_eq_signExtend {w : Nat} (raw : BitVec w) : signext w raw = raw.signExtend 32 := by
  unfold signext
  cases hmsb : raw.msb with
  | false => exact (BitVec.signExtend_eq_setWidth_of_msb_false hmsb).symm
  | true =>
    ext k hk
    have hmask : (0xFFFFFFFF#32).getLsbD (k - w) = true := by
      rw [show 0xFFFFFFFF#32 = BitVec.allOnes 32 from rfl, BitVec.getLsbD_allOnes, decide_eq_true_iff]
      omega
    by_cases hkw : k < w <;> simp [BitVec.getElem_signExtend, hkw, hmsb, hmask]

/-- The sign law: extension keeps the sign. -/
theorem signext_toInt_neg_iff {w : Nat} (hw : w ≤ 32) (raw : BitVec w) : (signext w raw).toInt < 0 ↔ raw.msb = true := by
  rw [signext_eq_signExtend, BitVec.toInt_signExtend_of_le hw, BitVec.msb_eq_toInt, decide_eq_true_iff]

/-- Settles O13: at each width the mask form is the definition of `signext` and the rest its two laws; `immU` is the identity. -/
theorem signExtensionStageIsTwosComplement : Obligations.SignExtensionStageIsTwosComplement := by
  unfold Obligations.SignExtensionStageIsTwosComplement
  refine ⟨fun raw => ?w12, fun raw => ?w13, fun raw => ?w21, fun raw => rfl⟩
  case w12 => exact ⟨rfl, signext_eq_signExtend raw, signext_toInt_neg_iff (by decide) raw⟩
  case w13 => exact ⟨rfl, signext_eq_signExtend raw, signext_toInt_neg_iff (by decide) raw⟩
  case w21 => exact ⟨rfl, signext_eq_signExtend raw, signext_toInt_neg_iff (by decide) raw⟩

end Sys2Proof.Machine
end

section
/-! SUPPORT. What the six format decoders return and deliver, each as a function of the word (spec/41_decode.md R72 to R77),
and what they reject (R78). -/

namespace Sys2Proof

/-- The mask of R58 clears the low 12 bits. -/
theorem rawU_low (w : Word) : (rawU w).extractLsb' 0 12 = 0#12 := by
  have hmask : (0xFFFFF000#32).extractLsb' 0 12 = 0#12 := by decide
  rw [rawU, BitVec.extractLsb'_and, hmask, BitVec.and_zero]

/-- The mask of R58 keeps the upper 20 bits. -/
theorem rawU_high (w : Word) : (rawU w).extractLsb' 12 20 = w.extractLsb' 12 20 := by
  have hmask : (0xFFFFF000#32).extractLsb' 12 20 = BitVec.allOnes 20 := by decide
  rw [rawU, BitVec.extractLsb'_and, hmask, BitVec.and_allOnes]

/-- The upper immediate is the word's upper 20 bits over twelve zeros. -/
theorem rawU_eq_append (w : Word) : rawU w = w.extractLsb' 12 20 ++ 0#12 := by
  rw [← rawU_high, ← rawU_low w]
  exact ((append_adjacent (rawU w) 20 12 0).trans (extract_all (rawU w))).symm

/-- An opcode that is none of the six selects no format. -/
theorem formatOf_eq_none_of_notMem {op : Opcode} (h : op ∉ [0x33#7, 0x13#7, 0x23#7, 0x63#7, 0x37#7, 0x6F#7]) :
    formatOf op = none := by
  cases hf : formatOf op with
  | none => rfl
  | some f =>
    rw [(formatOf_eq_some_iff op f).mp hf] at h
    exact absurd (by cases f <;> decide) h

end Sys2Proof

namespace Sys2Proof.Machine

/-- The variant that the decoder of format `f` returns for a word (R72 to R77): the common field is the word's own opcode, every
other field its slice, and each immediate is extended by the spec's `sext_N`, but for the U immediate. -/
def formatValue (f : Format) (w : Word) : DecodedInstruction :=
  match f with
  | .r => .r (opcodeOf w) (fieldRd w) (fieldRs1 w) (fieldRs2 w) (fieldFunct3 w) (fieldFunct7 w)
  | .i => .i (opcodeOf w) (fieldRd w) (fieldRs1 w) (fieldFunct3 w) ((rawI w).signExtend 32)
  | .s => .s (opcodeOf w) (fieldRs1 w) (fieldRs2 w) (fieldFunct3 w) ((rawS w).signExtend 32)
  | .b => .b (opcodeOf w) (fieldRs1 w) (fieldRs2 w) (fieldFunct3 w) ((rawB w).signExtend 32)
  | .u => .u (opcodeOf w) (fieldRd w) (rawU w)
  | .j => .j (opcodeOf w) (fieldRd w) ((rawJ w).signExtend 32)

/-- On a word of its opcode, a format's instruction has the value of R72 to R77: the immediate stage is `sext_N`. -/
theorem valueOf_instrOf {w : Word} {f : Format} (h : opcodeOf w = f.opcode) :
    valueOf (instrOf f w) = formatValue f w := by
  cases f <;>
    simp only [instrOf, valueOf, formatValue, h, immI, immS, immB, immU, immJ, signext_eq_signExtend]

/-- What DECODE returns on a word of format `f`. -/
theorem decodeWord_eq_formatValue {w : Word} (f : Format) (h : opcodeOf w = f.opcode) :
    decodeWord w = .ok (formatValue f w) := by
  rw [decodeWord_of_opcode f h, valueOf_instrOf h]

/-- A word of format `f` decodes to that format's instruction, which delivers the format's value and writes nothing else. -/
theorem decode_exec_of_opcode {w : Word} (f : Format) (h : opcodeOf w = f.opcode) (s : State) :
    decode w = .ok (instrOf f w) ∧
      exec (instrOf f w) s =
        .next { s with delivered := s.delivered ++ [⟨s.fetchAddr, s.raw, formatValue f w⟩] } := by
  refine ⟨(decode_ok_iff w _).mpr ⟨f, h, rfl⟩, ?_⟩
  rw [exec_eq_deliver, valueOf_instrOf h]
  rfl

/-- A value DECODE returns is that of the instruction which the format of the word's opcode reads from the word. -/
theorem exists_format_of_decodeWord_ok {w : Word} {d : DecodedInstruction} (h : decodeWord w = .ok d) :
    ∃ f : Format, opcodeOf w = f.opcode ∧ d = valueOf (instrOf f w) := by
  cases hf : formatOf (opcodeOf w) with
  | none => rw [decodeWord_of_unrecognised hf] at h; cases h
  | some f =>
    have hop : opcodeOf w = f.opcode := (formatOf_eq_some_iff _ f).mp hf
    rw [decodeWord_of_opcode f hop] at h
    cases h
    exact ⟨f, hop, rfl⟩

/-- Settles O2: the R row of the format decoders. -/
theorem decodeRDeliversTheRegisterFields : Obligations.DecodeRDeliversTheRegisterFields := by
  unfold Obligations.DecodeRDeliversTheRegisterFields
  exact fun w s h => decode_exec_of_opcode .r h s

/-- Settles O3: the I row of the format decoders. -/
theorem decodeIDeliversTheSignExtendedImmediate : Obligations.DecodeIDeliversTheSignExtendedImmediate := by
  unfold Obligations.DecodeIDeliversTheSignExtendedImmediate
  exact fun w s h => decode_exec_of_opcode .i h s

/-- Settles O4: the S row of the format decoders. -/
theorem decodeSDeliversTheSplitImmediate : Obligations.DecodeSDeliversTheSplitImmediate := by
  unfold Obligations.DecodeSDeliversTheSplitImmediate
  exact fun w s h => decode_exec_of_opcode .s h s

/-- Settles O5: the B row of the format decoders. -/
theorem decodeBDeliversTheBranchOffset : Obligations.DecodeBDeliversTheBranchOffset := by
  unfold Obligations.DecodeBDeliversTheBranchOffset
  exact fun w s h => decode_exec_of_opcode .b h s

/-- Settles O6: the U row of the format decoders, whose masked immediate is the upper 20 bits in place. -/
theorem decodeUDeliversTheUpperImmediate : Obligations.DecodeUDeliversTheUpperImmediate := by
  unfold Obligations.DecodeUDeliversTheUpperImmediate
  intro w s h
  rw [← rawU_eq_append]
  exact decode_exec_of_opcode .u h s

/-- Settles O7: the J row of the format decoders. -/
theorem decodeJDeliversTheJumpOffset : Obligations.DecodeJDeliversTheJumpOffset := by
  unfold Obligations.DecodeJDeliversTheJumpOffset
  exact fun w s h => decode_exec_of_opcode .j h s

/-- Settles O47: the six rows of the format decoders. -/
theorem formatDecodersReturnTheirVariants : Obligations.FormatDecodersReturnTheirVariants := by
  unfold Obligations.FormatDecodersReturnTheirVariants
  intro w
  exact ⟨decodeWord_eq_formatValue .r, decodeWord_eq_formatValue .i, decodeWord_eq_formatValue .s,
    decodeWord_eq_formatValue .b, decodeWord_eq_formatValue .u, decodeWord_eq_formatValue .j⟩

/-- Settles O11: each of the words named has an opcode that selects no format. -/
theorem unrecognisedOpcodeIsCarriedExactly : Obligations.UnrecognisedOpcodeIsCarriedExactly := by
  unfold Obligations.UnrecognisedOpcodeIsCarriedExactly
  refine ⟨fun w h => ?outside, ?zeros, ?ones, ?load, fun x op hop => ?named⟩
  case outside => exact decodeWord_of_unrecognised (formatOf_eq_none_of_notMem h)
  case zeros => exact decodeWord_of_unrecognised (by decide)
  case ones => exact decodeWord_of_unrecognised (by decide)
  case load => exact decodeWord_of_unrecognised (by decide)
  case named =>
    have hnone : ∀ op ∈ [0x03#7, 0x67#7, 0x17#7, 0x73#7, 0x0F#7], formatOf op = none := by decide
    have hx : opcodeOf (x ++ op : BitVec 32) = op := opcodeOf_append x op
    have hd := decodeWord_of_unrecognised (w := x ++ op) (by rw [hx]; exact hnone op hop)
    rwa [hx] at hd

end Sys2Proof.Machine
end

section
/-! SUPPORT. The laws of a decoded value: its immediate's sign and low bits (R81), and its fields as slices (R80). -/

namespace Sys2Proof.Machine

/-- The sign-extension stage keeps the low bits of a raw value. -/
theorem signext_getLsbD {w k : Nat} (raw : BitVec w) (hk : k < w) (hw : w ≤ 32) :
    (signext w raw).getLsbD k = raw.getLsbD k := by
  rw [signext_eq_signExtend, BitVec.getLsbD_signExtend, if_pos hk, decide_eq_true (by omega : k < 32), Bool.true_and]

/-- A value with 0 appended, at its least significant bit. -/
theorem getLsbD_zero_append_zero {n : Nat} (x : BitVec n) : (x ++ 0#1).getLsbD 0 = false := by
  rw [BitVec.getLsbD_append, if_pos Nat.zero_lt_one]
  rfl

/-- A branch offset is even: R57 appends its bit 0, which is 0. -/
theorem immB_rawB_even (w : Word) : (immB (rawB w)).getLsbD 0 = false :=
  (signext_getLsbD (rawB w) (by decide) (by decide)).trans (getLsbD_zero_append_zero _)

/-- A jump offset is even: R59 appends its bit 0, which is 0. -/
theorem immJ_rawJ_even (w : Word) : (immJ (rawJ w)).getLsbD 0 = false :=
  (signext_getLsbD (rawJ w) (by decide) (by decide)).trans (getLsbD_zero_append_zero _)

/-- Settles O14: (a) is what DECODE answers for a recognised opcode; (b) to (d) follow from how each format assembles its immediate. -/
theorem decodedImmediateLaws : Obligations.DecodedImmediateLaws := by
  unfold Obligations.DecodedImmediateLaws
  refine ⟨fun w f hop => ?variant, fun w d imm hd himm => ?laws⟩
  case variant =>
    refine ⟨valueOf (instrOf f w), decodeWord_of_opcode f hop, ?_, ?_⟩
    · rw [valueOf_format, instrOf_format]
    · rw [valueOf_opcode, instrOf_format, hop]
  case laws =>
    obtain ⟨f, -, rfl⟩ := exists_format_of_decodeWord_ok hd
    rw [valueOf_format, instrOf_format]
    cases f <;> cases himm
    case i => exact signext_toInt_neg_iff (by decide) (rawI w)
    case s => exact signext_toInt_neg_iff (by decide) (rawS w)
    case b => exact ⟨signext_toInt_neg_iff (by decide) (rawB w), immB_rawB_even w⟩
    case u => exact ⟨rawU_low w, rawU_high w⟩
    case j => exact ⟨signext_toInt_neg_iff (by decide) (rawJ w), immJ_rawJ_even w⟩

section
variable {w : Word} {f : Format}

theorem eq_fieldRd_of_rd? {v : RegIdx} (h : (valueOf (instrOf f w)).rd? = some v) : v = fieldRd w := by
  cases f <;> cases h <;> rfl

theorem eq_fieldRs1_of_rs1? {v : RegIdx} (h : (valueOf (instrOf f w)).rs1? = some v) : v = fieldRs1 w := by
  cases f <;> cases h <;> rfl

theorem eq_fieldRs2_of_rs2? {v : RegIdx} (h : (valueOf (instrOf f w)).rs2? = some v) : v = fieldRs2 w := by
  cases f <;> cases h <;> rfl

theorem eq_fieldFunct3_of_funct3? {v : Funct3} (h : (valueOf (instrOf f w)).funct3? = some v) : v = fieldFunct3 w := by
  cases f <;> cases h <;> rfl

theorem eq_fieldFunct7_of_funct7? {v : Funct7} (h : (valueOf (instrOf f w)).funct7? = some v) : v = fieldFunct7 w := by
  cases f <;> cases h
  rfl

end

/-- Settles O15: a field that a variant has is the slice, and a slice of `n` bits is below `2 ^ n`. -/
theorem decodedFieldsAreMaskedSlices : Obligations.DecodedFieldsAreMaskedSlices := by
  unfold Obligations.DecodedFieldsAreMaskedSlices
  intro w d hd
  obtain ⟨f, hop, rfl⟩ := exists_format_of_decodeWord_ok hd
  have hopcode : (valueOf (instrOf f w)).opcode = w.extractLsb' 0 7 := by
    rw [valueOf_opcode, instrOf_format, ← hop]
    rfl
  exact ⟨fun v hv => ⟨eq_fieldRd_of_rd? hv, Nat.le_of_lt_succ v.isLt⟩,
    fun v hv => ⟨eq_fieldRs1_of_rs1? hv, Nat.le_of_lt_succ v.isLt⟩,
    fun v hv => ⟨eq_fieldRs2_of_rs2? hv, Nat.le_of_lt_succ v.isLt⟩,
    fun v hv => ⟨eq_fieldFunct3_of_funct3? hv, Nat.le_of_lt_succ v.isLt⟩,
    fun v hv => ⟨eq_fieldFunct7_of_funct7? hv, Nat.le_of_lt_succ v.isLt⟩,
    hopcode, Nat.le_of_lt_succ (BitVec.isLt _)⟩

end Sys2Proof.Machine
end

section
/-! SUPPORT. Several instances side by side: a move replaces its own instance and nothing else (R104). -/

namespace Sys2Proof.Machine

/-- A move on instance `k` can be made exactly where there is such an instance and the move can be made on it, and it puts the
moved instance back at its place. -/
theorem applyMoveAt_eq_some_iff {k : Nat} {m : Move} {cores after : List State} :
    applyMoveAt k m cores = some after ↔
      ∃ s t, cores[k]? = some s ∧ applyMove m s = some t ∧ cores.set k t = after := by
  simp only [applyMoveAt, Option.map_eq_some_iff, Option.bind_eq_some_iff]
  constructor
  · rintro ⟨t, ⟨s, hs, ht⟩, hset⟩
    exact ⟨s, t, hs, ht, hset⟩
  · rintro ⟨s, t, hs, ht, hset⟩
    exact ⟨t, ⟨s, hs, ht⟩, hset⟩

/-- Settles O45: replacing the element at `k` keeps the length of the list and every other element. -/
theorem instancesShareNoState : Obligations.InstancesShareNoState := by
  unfold Obligations.InstancesShareNoState
  intro k m cores after h
  obtain ⟨s, t, hs, ht, rfl⟩ := applyMoveAt_eq_some_iff.mp h
  have hk : k < cores.length := (List.getElem?_eq_some_iff.mp hs).1
  refine ⟨List.length_set, fun j hj => ?others, s, t, hs, ht, ?own⟩
  case others => exact List.getElem?_set_ne hj.symm
  case own => exact List.getElem?_set_self hk

end Sys2Proof.Machine
end

section
/-! SUPPORT. How a step ends: with one delivery, or with one recorded error and no delivery (R115). -/

namespace Sys2Proof.Machine

/-- Settles O32: a fetch error and a decode error are raised, which delivers nothing; a decoded word is delivered with no
fault held. -/
theorem everyStepDeliversOrRecordsAnError : Obligations.EveryStepDeliversOrRecordsAnError := by
  unfold Obligations.EveryStepDeliversOrRecordsAnError
  intro s hs
  rcases step_cases s with ⟨e, he, -⟩ | ⟨-, e, -, hstep⟩ | ⟨-, w, -, -, hstep⟩ | ⟨-, w, i, -, -, hstep⟩
  case inl => exact absurd (hs.symm.trans he) nofun
  case inr.inl => exact ⟨_, hstep, .inr ⟨⟨e, raise_fault s e⟩, raise_delivered s e⟩⟩
  case inr.inr.inl =>
    refine ⟨_, hstep, .inr ⟨⟨_, raise_fault _ _⟩, ?_⟩⟩
    rw [raise_delivered, advance_delivered]
  case inr.inr.inr =>
    refine ⟨_, hstep, .inl ⟨?_, ⟨s.pc, w, valueOf i⟩, ?_⟩⟩
    · rw [deliver_fault, advance_fault, hs]
    · rw [deliver_delivered, advance_delivered, advance_fetchAddr, advance_raw]

end Sys2Proof.Machine
end

section
/-! SUPPORT. The encoder against the format tables (R48 to R53), and the two round trips between words and instructions. -/

namespace Sys2Proof

/-- Two slices that meet, the upper one ending where the lower one begins, make one slice. -/
theorem append_slices {n a b k l : Nat} (w : BitVec n) (h : a = b + l) :
    w.extractLsb' a k ++ w.extractLsb' b l = w.extractLsb' b (k + l) := by
  subst h
  exact append_adjacent w k l b

/-- Settles O17: each slice of the encoded word is read out of the append it falls in; the bits not encoded are appended or
masked zeros. -/
theorem encoderFollowsTheFormatTables : Obligations.EncoderFollowsTheFormatTables := by
  unfold Obligations.EncoderFollowsTheFormatTables
  refine ⟨fun rd f3 rs1 rs2 f7 => ?r, fun rd f3 rs1 raw => ?i, fun f3 rs1 rs2 raw => ?s, fun f3 rs1 rs2 raw => ?b,
    fun rd raw => ?u, fun rd raw => ?j, fun w => ?unencoded⟩
  case unencoded =>
    exact ⟨Machine.getLsbD_zero_append_zero _, rawU_low w, Machine.getLsbD_zero_append_zero _⟩
  all_goals
    simp (disch := decide) only [encode, extract_append_left, extract_append_right, extract_all, Nat.reduceSub, and_self]

/-- The immediate bits that a format does not encode are 0 in what the format reads from a word. -/
theorem instrOf_wellFormed (f : Format) (w : Word) : (instrOf f w).WellFormed := by
  cases f
  case r | i | s => rfl
  case b | j => exact beq_iff_eq.mpr (extract_right _ _)
  case u => exact beq_iff_eq.mpr (rawU_low w)

/-- The slices that a format's table lists, put together from bit 31 down, are the word. -/
theorem encode_instrOf {f : Format} {w : Word} (h : opcodeOf w = f.opcode) : encode (instrOf f w) = w := by
  cases f
  all_goals
    simp only [Format.opcode] at h
    simp (disch := decide) only [encode, instrOf, ← h, rawI, rawS, rawB, rawU_high, rawJ, extract_append_left,
      extract_append_right, extract_all, Nat.reduceSub]
    simp (disch := rfl) only [fieldRd, fieldRs1, fieldRs2, fieldFunct3, fieldFunct7, opcodeOf, slice, append_slices,
      extract_all]

/-- Settles O19: an instruction decoded is the one its format reads from the word. -/
theorem encodeOfDecodeIsTheWord : Obligations.EncodeOfDecodeIsTheWord := by
  unfold Obligations.EncodeOfDecodeIsTheWord
  intro w i hi
  obtain ⟨f, hop, rfl⟩ := (decode_ok_iff w i).mp hi
  exact ⟨instrOf_wellFormed f w, encode_instrOf hop⟩

/-- A format reads back every field that the encoder wrote. A raw immediate comes back in pieces, the bits not encoded as zeros,
and well-formedness says that these are the instruction's own. -/
theorem instrOf_encode {i : Instr} (h : i.WellFormed) : instrOf i.format (encode i) = i := by
  cases i
  all_goals
    simp only [Instr.WellFormed, Instr.wf, beq_iff_eq] at h
    simp (disch := decide) only [Instr.format, encode, instrOf, fieldRd, fieldRs1, fieldRs2, fieldFunct3, fieldFunct7,
      rawI, rawS, rawB, rawU_eq_append, rawJ, slice, extract_append_left, extract_append_right, extract_all,
      Nat.reduceSub]
  case decodeS => simp (disch := rfl) only [append_slices, extract_all]
  case decodeB | decodeU | decodeJ => simp (disch := rfl) only [← h, append_slices, extract_all]

/-- The opcode the encoder writes is that of the instruction's format. -/
theorem opcodeOf_encode (i : Instr) : opcodeOf (encode i) = i.format.opcode := by
  cases i <;> exact opcodeOf_append _ _

/-- A word round trip: the format the opcode selects reads the instruction back. -/
theorem decode_encode {i : Instr} (h : i.WellFormed) : decode (encode i) = .ok i :=
  (decode_ok_iff _ i).mpr ⟨i.format, opcodeOf_encode i, (instrOf_encode h).symm⟩

/-- Settles O18: four bytes in memory order are the encoded word again. -/
theorem decodeOfEncodeIsTheInstruction : Obligations.DecodeOfEncodeIsTheInstruction := by
  unfold Obligations.DecodeOfEncodeIsTheInstruction
  intro i hi
  refine ⟨decode_encode hi, fun rest => ?_⟩
  have hd : decode (wordOfBytes (byteOfWord (encode i) 0) (byteOfWord (encode i) 1) (byteOfWord (encode i) 2)
      (byteOfWord (encode i) 3)) = .ok i := by
    rw [wordOfBytes_byteOfWord, decode_encode hi]
  simp only [encodeBytes, List.cons_append, List.nil_append, decodeBytes, hd]

end Sys2Proof
end

section
/-! SUPPORT. FETCH, DECODE and the step in the terms of the statements: `Fetchable` and `decodeWord`. -/

namespace Sys2Proof.Machine

/-- DECODE answers a value exactly where the word decodes to an instruction with that value. -/
theorem decodeWord_ok_iff (w : Word) (d : DecodedInstruction) :
    decodeWord w = .ok d ↔ ∃ i, decode w = .ok i ∧ d = valueOf i := by
  cases h : decode w <;> simp [decodeWord, h, Except.map, eq_comm]

/-- DECODE rejects exactly the unrecognised opcodes, and says which. -/
theorem decodeWord_error_iff (w : Word) (op : Opcode) :
    decodeWord w = .error (.unsupportedOpcode op) ↔ formatOf (opcodeOf w) = none ∧ op = opcodeOf w := by
  cases h : formatOf (opcodeOf w) with
  | none => simp [decodeWord_of_unrecognised h, eq_comm]
  | some f => simp [decodeWord_of_opcode f ((formatOf_eq_some_iff _ f).mp h)]

/-- The error that a fetch raises where the pc admits none: alignment before bounds (R97). -/
def fetchFault (s : State) : Fault :=
  if s.params.fetchMisaligned = .fault ∧ s.pc.toNat % 4 ≠ 0 then .misalignedFetch s.pc else .outOfBounds s.pc

/-- Where the pc admits no fetch, FETCH raises `fetchFault`. -/
theorem fetch_of_not_fetchable {s : State} (h : ¬ Fetchable s) : fetch s = .error (fetchFault s) := by
  rcases fetch_cases s with ⟨hm, hf⟩ | ⟨hm, -, hf⟩ | ⟨-, -, hf⟩
  · rw [hf, fetchFault, if_pos ((misalignedAt_iff s s.pc).mp hm)]
  · rw [hf, fetchFault, if_neg ((misalignedAt_iff s s.pc).not.mp (Bool.eq_false_iff.mp hm))]
  · exact absurd ((fetch_ok_iff s _ _).mp hf).1 h

/-- FETCH raises an error exactly where the pc admits no fetch, and it is `fetchFault`. -/
theorem fetch_error_iff (s : State) (e : Fault) : fetch s = .error e ↔ ¬ Fetchable s ∧ e = fetchFault s := by
  by_cases h : Fetchable s
  · simp [fetch_of_fetchable h, h]
  · simp [fetch_of_not_fetchable h, h, eq_comm]

/-- The error of a failed fetch is one its condition in R91 allows. -/
theorem fetchFault_justified {s : State} (h : ¬ Fetchable s) : (fetchFault s).Justified s.params := by
  unfold fetchFault
  split
  case isTrue hm => exact hm
  case isFalse hm =>
    simp only [Fetchable, Fault.Justified] at *
    by_contra hn
    exact h ⟨fun hp => by_contra fun hne => hm ⟨hp, hne⟩, by omega⟩

section
variable {s t : State}

/-- A step whose fetch fails. -/
theorem step_of_not_fetchable (hs : s.fault = none) (h : ¬ Fetchable s) : step s = .next (raise (fetchFault s) s) :=
  step_of_fetch_error hs (fetch_of_not_fetchable h)

/-- A step whose word is rejected. -/
theorem step_of_decodeWord_error {op : Opcode} (hs : s.fault = none) (h : Fetchable s)
    (hd : decodeWord (wordAt s s.pc.toNat) = .error (.unsupportedOpcode op)) :
    step s = .next (raise (.unsupportedOpcode op s.pc) (advance s (wordAt s s.pc.toNat))) := by
  obtain ⟨hn, rfl⟩ := (decodeWord_error_iff _ op).mp hd
  exact step_of_decode_error hs (fetch_of_fetchable h) ((decode_error_iff _ _).mpr ⟨hn, rfl⟩)

/-- A step whose word decodes. -/
theorem step_of_decodeWord_ok {d : DecodedInstruction} (hs : s.fault = none) (h : Fetchable s)
    (hd : decodeWord (wordAt s s.pc.toNat) = .ok d) :
    step s = .next (deliver d (advance s (wordAt s s.pc.toNat))) := by
  obtain ⟨i, hi, rfl⟩ := (decodeWord_ok_iff _ d).mp hd
  exact step_of_decode_ok hs (fetch_of_fetchable h) hi

/-- Everything a step that answers a next state can have done. -/
theorem step_next_cases (h : step s = .next t) : s.fault = none ∧
    ((¬ Fetchable s ∧ t = raise (fetchFault s) s) ∨
     (Fetchable s ∧ ∃ op, decodeWord (wordAt s s.pc.toNat) = .error (.unsupportedOpcode op) ∧
       t = raise (.unsupportedOpcode op s.pc) (advance s (wordAt s s.pc.toNat))) ∨
     (Fetchable s ∧ ∃ d, decodeWord (wordAt s s.pc.toNat) = .ok d ∧
       t = deliver d (advance s (wordAt s s.pc.toNat)))) := by
  rcases step_cases s with ⟨e, -, hstep⟩ | ⟨hs, e, hf, hstep⟩ | ⟨hs, w, hf, hn, hstep⟩ | ⟨hs, w, i, hf, hd, hstep⟩
  all_goals
    rw [hstep] at h
    cases h
  case inr.inl =>
    obtain ⟨hF, rfl⟩ := (fetch_error_iff s e).mp hf
    exact ⟨hs, .inl ⟨hF, rfl⟩⟩
  case inr.inr.inl =>
    obtain ⟨hF, rfl, -⟩ := (fetch_ok_iff s w _).mp hf
    exact ⟨hs, .inr (.inl ⟨hF, _, decodeWord_of_unrecognised hn, rfl⟩)⟩
  case inr.inr.inr =>
    obtain ⟨hF, rfl, -⟩ := (fetch_ok_iff s w _).mp hf
    exact ⟨hs, .inr (.inr ⟨hF, _, decodeWord_of_decode hd, rfl⟩)⟩

/-- Where a step leaves the pc. -/
theorem step_pc (h : step s = .next t) : (Fetchable s ∧ t.pc = s.pc + 4#32) ∨ (¬ Fetchable s ∧ t.pc = s.pc) := by
  obtain ⟨-, ⟨hF, rfl⟩ | ⟨hF, op, -, rfl⟩ | ⟨hF, d, -, rfl⟩⟩ := step_next_cases h
  · exact .inr ⟨hF, rfl⟩
  · exact .inl ⟨hF, rfl⟩
  · exact .inl ⟨hF, rfl⟩

end

end Sys2Proof.Machine
end

section
/-! SUPPORT. The invariant under each update of State, and so under every step and every sequence of environment moves. -/

namespace Sys2Proof.Machine

section
variable {s t : State}

/-- Construction with parameters that R8 and R9 allow meets the invariant. -/
theorem Inv.construct {p : Params} (hp : p.Ok) (r : Vector Word 32) : Inv (State.construct p r) where
  params := hp
  memWf := hp.initWf
  memWithin := hp.initWithin
  fault := nofun
  delivered := nofun

/-- FETCH writes nothing that the invariant speaks of. -/
theorem Inv.advance (h : Inv s) (w : Word) : Inv (advance s w) :=
  ⟨h.params, h.memWf, h.memWithin, h.fault, h.delivered⟩

/-- Raising an error keeps the invariant where the error's condition holds. -/
theorem Inv.raise (h : Inv s) {e : Fault} (he : e.Justified s.params) : Inv (raise e s) where
  params := h.params
  memWf := h.memWf
  memWithin := h.memWithin
  fault := fun _ he' => Option.some.inj he' ▸ he
  delivered := h.delivered

/-- Delivering a value keeps the invariant where it is what the fetched word decodes to, at an admitted address. -/
theorem Inv.deliver (h : Inv s) {d : DecodedInstruction} (hd : Delivery.Sound s.params ⟨s.fetchAddr, s.raw, d⟩) :
    Inv (deliver d s) where
  params := h.params
  memWf := h.memWf
  memWithin := h.memWithin
  fault := h.fault
  delivered := List.forall_mem_append.mpr ⟨h.delivered, List.forall_mem_singleton.mpr hd⟩

/-- The environment may write any pc. -/
theorem Inv.writePc (h : Inv s) (v : Word) : Inv { s with pc := v } :=
  ⟨h.params, h.memWf, h.memWithin, h.fault, h.delivered⟩

/-- The environment may write any register of the context. -/
theorem Inv.writeReg (h : Inv s) (i : RegIdx) (v : Word) : Inv (writeReg s i v) :=
  ⟨h.params, h.memWf, h.memWithin, h.fault, h.delivered⟩

/-- A byte written keeps the canonical form inside memory. -/
theorem Inv.writeByte (h : Inv s) (a : Nat) (b : Byte) : Inv (writeByte s a b) where
  params := by rw [writeByte_params]; exact h.params
  memWf := writeByte_wf h.memWf a b
  memWithin := by rw [writeByte_params]; exact writeByte_within h.memWithin a b
  fault := by rw [writeByte_params, writeByte_fault]; exact h.fault
  delivered := by rw [writeByte_params, writeByte_delivered]; exact h.delivered

/-- Every step keeps the invariant: an error is raised where its condition holds, and a value is delivered for an address that
FETCH admitted. -/
theorem Inv.step (h : Inv s) (ht : step s = .next t) : Inv t := by
  obtain ⟨-, ⟨hF, rfl⟩ | ⟨hF, op, hd, rfl⟩ | ⟨hF, d, hd, rfl⟩⟩ := step_next_cases ht
  · exact h.raise (fetchFault_justified hF)
  · obtain ⟨hn, rfl⟩ := (decodeWord_error_iff _ op).mp hd
    exact (h.advance _).raise hn
  · exact (h.advance _).deliver ⟨hd, hF.2, hF.1⟩

/-- Every environment move keeps the invariant. -/
theorem Inv.applyMove (h : Inv s) {m : Move} (ht : applyMove m s = some t) : Inv t := by
  obtain ⟨v, -, rfl⟩ | ⟨a, b, -, -, rfl⟩ | ⟨i, v, -, rfl⟩ | ⟨-, rfl⟩ | ⟨r, -, rfl⟩ := applyMove_cases ht
  · exact h.writePc v
  · exact h.writeByte a b
  · exact h.writeReg i v
  · obtain ⟨u, hu, hreq⟩ | ⟨e, -, hreq⟩ := request_cases s
    · rw [hreq]
      exact h.step hu
    · rw [hreq]
      exact h
  · exact Inv.construct h.params r

end

/-- What every move of a sequence keeps, the sequence keeps. -/
theorem applyMoves_keeps {P : State → Prop} {ms : List Move}
    (hmove : ∀ m ∈ ms, ∀ u v, P u → applyMove m u = some v → P v) {s t : State} (hs : P s)
    (h : applyMoves ms s = some t) : P t := by
  induction ms generalizing s with
  | nil => exact Option.some.inj h ▸ hs
  | cons m ms ih =>
    obtain ⟨u, hu, ht⟩ := Option.bind_eq_some_iff.mp h
    have hkeep := List.forall_mem_cons.mp hmove
    exact ih hkeep.2 (hkeep.1 s u hs hu) ht

/-- Settles O39: `Inv.step`. -/
theorem stepKeepsTheInvariant : Obligations.StepKeepsTheInvariant := by
  unfold Obligations.StepKeepsTheInvariant
  exact fun s t hs ht => hs.step ht

/-- Settles O40: each move keeps the invariant, so a sequence of moves does. -/
theorem environmentMovesKeepTheInvariant : Obligations.EnvironmentMovesKeepTheInvariant := by
  unfold Obligations.EnvironmentMovesKeepTheInvariant
  exact fun ms s t hs ht => applyMoves_keeps (fun m _ u v hu hv => hu.applyMove hv) hs ht

/-- Settles O38: `Inv.construct`, and the default parameters are among those R8 and R9 allow. -/
theorem constructionMeetsTheInvariant : Obligations.ConstructionMeetsTheInvariant := by
  unfold Obligations.ConstructionMeetsTheInvariant
  have hdefault : Params.default.Ok := ⟨by decide, rfl, rfl⟩
  exact ⟨fun p r hp => Inv.construct hp r, Inv.construct hdefault _⟩

/-- No move changes a parameter. -/
theorem applyMove_params {m : Move} {s t : State} (h : applyMove m s = some t) : t.params = s.params := by
  obtain ⟨v, -, rfl⟩ | ⟨a, b, -, -, rfl⟩ | ⟨i, v, -, rfl⟩ | ⟨-, rfl⟩ | ⟨r, -, rfl⟩ := applyMove_cases h
  · rfl
  · exact writeByte_params s a b
  · rfl
  · obtain ⟨u, hu, hreq⟩ | ⟨e, -, hreq⟩ := request_cases s
    · rw [hreq]
      exact (step_keeps_context hu).params
    · rw [hreq]
  · rfl

/-- A faulted CORE ignores a request. -/
theorem request_of_fault {s : State} {e : Fault} (h : s.fault = some e) : request s = s := by
  rw [request, step_of_fault h]

/-- No move but a reset changes a fault that is held. -/
theorem applyMove_fault {m : Move} (hm : ∀ r, m ≠ .reset r) {s t : State} {e : Fault} (hs : s.fault = some e)
    (h : applyMove m s = some t) : t.fault = some e := by
  obtain ⟨v, -, rfl⟩ | ⟨a, b, -, -, rfl⟩ | ⟨i, v, -, rfl⟩ | ⟨-, rfl⟩ | ⟨r, hr, rfl⟩ := applyMove_cases h
  · exact hs
  · rw [writeByte_fault, hs]
  · exact hs
  · rw [request_of_fault hs, hs]
  · exact absurd hr (hm r)

/-- Settles O41: the parameters are kept by every move, a held fault by every move but a reset. -/
theorem onlyResetClearsTheFault : Obligations.OnlyResetClearsTheFault := by
  unfold Obligations.OnlyResetClearsTheFault
  intro ms s t e h
  refine ⟨applyMoves_keeps (P := fun u => u.params = s.params) (fun m _ u v hu hv => ?params) rfl h, fun hs hms =>
    applyMoves_keeps (P := fun u => u.fault = some e) (fun m hm u v hu hv => ?fault) hs h⟩
  case params => exact (applyMove_params hv).trans hu
  case fault => exact applyMove_fault (fun r hr => hms r (hr ▸ hm)) hu hv

/-- Settles O31: the step, the request and the end of the run each look at the held fault first. -/
theorem faultedCoreTakesNoStep : Obligations.FaultedCoreTakesNoStep := by
  unfold Obligations.FaultedCoreTakesNoStep
  intro s e hs
  refine ⟨step_of_fault hs, ?_, ?_⟩
  · exact congrArg some (request_of_fault hs)
  · rw [runEnd, hs]

/-- Settles O37: construction takes each field from the parameters; the reset move constructs with the state's own. -/
theorem resetLeavesTheSpecifiedState : Obligations.ResetLeavesTheSpecifiedState := by
  unfold Obligations.ResetLeavesTheSpecifiedState
  refine ⟨fun p r => ⟨construct_pc p r, construct_fault p r, fun a ha => ?_, construct_delivered p r, construct_params p r⟩,
    fun s r => rfl, rfl, rfl⟩
  rw [memByte, construct_params, construct_mem, if_pos ha]

end Sys2Proof.Machine
end

section
/-! SUPPORT. What FETCH raises, and where the pc goes (R66 to R70, R97). -/

namespace Sys2Proof.Machine

/-- An address at or above MEM_SIZE holds no byte. -/
theorem memByte_eq_none_iff (s : State) (a : Nat) : memByte s a = none ↔ s.params.memSize ≤ a := by
  simp [memByte]

/-- Some byte of the word at `a` is outside memory exactly where the last one is. -/
theorem exists_memByte_eq_none_iff (s : State) (a : Nat) :
    (∃ k, k < 4 ∧ memByte s (a + k) = none) ↔ s.params.memSize ≤ a + 3 := by
  simp only [memByte_eq_none_iff]
  exact ⟨fun ⟨k, hk, h⟩ => by omega, fun h => ⟨3, by decide, h⟩⟩

/-- Settles O23: of what FETCH can answer, the alignment error has the first condition and the bounds error the second. -/
theorem fetchRaisesExactlyTheseErrors : Obligations.FetchRaisesExactlyTheseErrors := by
  unfold Obligations.FetchRaisesExactlyTheseErrors
  intro s e
  rw [exists_memByte_eq_none_iff, ← and_assoc (c := e = .misalignedFetch s.pc), ← misalignedAt_iff, ← outOfBoundsAt_iff]
  rcases fetch_cases s with ⟨hm, hf⟩ | ⟨hm, hb, hf⟩ | ⟨hm, hb, hf⟩
  · simp [hm, hf, @eq_comm _ e]
  · simp [hm, hb, hf, @eq_comm _ e]
  · simp [hm, hb, hf]

/-- Settles O22: the state FETCH leaves is `advance`, whose other fields are as before. -/
theorem fetchWritesOnlyThePc : Obligations.FetchWritesOnlyThePc := by
  unfold Obligations.FetchWritesOnlyThePc
  intro s hs
  have hctx : SameContext s (advance s (wordAt s s.pc.toNat)) := ⟨rfl, rfl, rfl⟩
  exact ⟨_, _, fetch_of_fetchable hs, rfl, rfl, rfl, rfl, hctx.memByte_eq, hctx.readReg_eq, rfl, rfl, rfl⟩

/-- Settles O24: both conditions shut out a fetch, and `fetchFault` asks the alignment first. -/
theorem fetchErrorIsRecordedAndPcKept : Obligations.FetchErrorIsRecordedAndPcKept := by
  unfold Obligations.FetchErrorIsRecordedAndPcKept
  intro s hs
  refine ⟨fun hp hpc => ?alignment, fun hpc hsize => ?bounds⟩
  case alignment =>
    rw [step_of_not_fetchable hs fun hF => hpc (hF.1 hp), fetchFault, if_pos ⟨hp, hpc⟩]
    rfl
  case bounds =>
    rw [step_of_not_fetchable hs fun hF => Nat.not_lt.mpr hsize hF.2, fetchFault, if_neg fun h => h.2 (hpc h.1)]
    rfl

/-- Settles O25: a step answers a next state, which has moved the pc where FETCH admits it and only there. -/
theorem stepAdvancesPcByFourWhateverTheWord : Obligations.StepAdvancesPcByFourWhateverTheWord := by
  unfold Obligations.StepAdvancesPcByFourWhateverTheWord
  intro s hs
  obtain ⟨t, ht, -⟩ := everyStepDeliversOrRecordsAnError s hs
  refine ⟨fun hF => ?admitted, fun hF => ?failed⟩
  case admitted =>
    have hpc : t.pc = s.pc + 4#32 := (step_pc ht).elim (·.2) fun h => absurd hF h.1
    exact ⟨t, ht, hpc, by rw [hpc, BitVec.toNat_add]; rfl⟩
  case failed => exact ⟨t, ht, (step_pc ht).elim (fun h => absurd h.1 hF) (·.2)⟩

/-- Settles O26: only an admitted fetch moves the pc, and of those only one that ends at the top of memory. -/
theorem pcWrapsOnlyAtTheTopOfAFullMemory : Obligations.PcWrapsOnlyAtTheTopOfAFullMemory := by
  unfold Obligations.PcWrapsOnlyAtTheTopOfAFullMemory
  intro s t hsize hstep hlt
  obtain ⟨⟨-, hin⟩, hpc⟩ | ⟨-, hpc⟩ := step_pc hstep
  case inl =>
    rw [hpc] at hlt ⊢
    have htop : s.pc = 0xFFFFFFFC#32 := by bv_omega
    refine ⟨?_, htop, by rw [htop]; rfl⟩
    rw [htop] at hin
    exact Nat.le_antisymm hsize hin
  case inr => exact absurd hlt (hpc ▸ Nat.lt_irrefl _)

/-- Settles O27: the pc moves by 4, whose wrap at `2 ^ 32` is a multiple of 4, or not at all. -/
theorem stepKeepsPcAlignment : Obligations.StepKeepsPcAlignment := by
  unfold Obligations.StepKeepsPcAlignment
  intro s t h
  obtain ⟨-, hpc⟩ | ⟨-, hpc⟩ := step_pc h
  · rw [hpc]
    bv_omega
  · rw [hpc]

end Sys2Proof.Machine
end

section
/-! SUPPORT. What a step does with the word it fetches (R83 to R89). -/

namespace Sys2Proof.Machine

/-- Settles O28: the step of a decoded word is its meaning on the state that FETCH left. -/
theorem stepRunsTheDecodedInstruction : Obligations.StepRunsTheDecodedInstruction := by
  unfold Obligations.StepRunsTheDecodedInstruction
  intro s i hs hF _ hi
  rw [step_of_decode_ok hs (fetch_of_fetchable hF) hi, exec_eq_deliver]
  rfl

/-- Settles O29: `step_of_decodeWord_ok`, with the pc's advance as an addition of integers. -/
theorem successfulStepDeliversTheDecodedValue : Obligations.SuccessfulStepDeliversTheDecodedValue := by
  unfold Obligations.SuccessfulStepDeliversTheDecodedValue
  intro s d hs hF hd
  have hpc : BitVec.ofNat 32 (s.pc.toNat + 4) = s.pc + 4#32 := by
    rw [BitVec.ofNat_add, BitVec.ofNat_toNat, BitVec.setWidth_eq]
  rw [hpc]
  exact step_of_decodeWord_ok hs hF hd

/-- Settles O30: `step_of_decodeWord_error`. -/
theorem unsupportedOpcodeIsRecordedAfterTheAdvance : Obligations.UnsupportedOpcodeIsRecordedAfterTheAdvance := by
  unfold Obligations.UnsupportedOpcodeIsRecordedAfterTheAdvance
  intro s op hs hF hd
  exact ⟨((decodeWord_error_iff _ op).mp hd).2, step_of_decodeWord_error hs hF hd⟩

/-- The bytes that a fetch reads at a pc that admits one. -/
theorem fetchReads_of_fetchable {s : State} (h : Fetchable s) :
    fetchReads s = [s.pc.toNat, s.pc.toNat + 1, s.pc.toNat + 2, s.pc.toNat + 3] := by
  have hm : misalignedAt s s.pc = false := Bool.eq_false_iff.mpr fun hm =>
    have ⟨hp, hpc⟩ := (misalignedAt_iff s s.pc).mp hm
    hpc (h.1 hp)
  have hb : outOfBoundsAt s s.pc = false := Bool.eq_false_iff.mpr fun hb =>
    Nat.not_lt.mpr ((outOfBoundsAt_iff s s.pc).mp hb) h.2
  rw [fetchReads, hm, hb]
  rfl

/-- A byte inside memory is what the contents read as. -/
theorem memByte_of_lt {s : State} {a : Nat} (h : a < s.params.memSize) : memByte s a = some (s.mem.read a) := if_pos h

/-- Two states whose bytes agree where the first one fetches hold the same word there. -/
theorem wordAt_eq_of_fetchReads {s s' : State} (hF : Fetchable s)
    (h : ∀ a ∈ fetchReads s, memByte s' a = memByte s a) : wordAt s' s.pc.toNat = wordAt s s.pc.toNat := by
  rw [fetchReads_of_fetchable hF] at h
  simp only [List.forall_mem_cons] at h
  obtain ⟨h0, h1, h2, h3, -⟩ := h
  have hin := hF.2
  exact wordAt_of_memByte (h0.trans (memByte_of_lt (by omega))) (h1.trans (memByte_of_lt (by omega)))
    (h2.trans (memByte_of_lt (by omega))) (h3.trans (memByte_of_lt (by omega)))

/-- Whether a fetch is admitted depends on the parameters and the pc alone. -/
theorem fetchable_congr {s t : State} (hparams : t.params = s.params) (hpc : t.pc = s.pc) : Fetchable t ↔ Fetchable s := by
  rw [Fetchable, Fetchable, hparams, hpc]

/-- The error of a failed fetch depends on the parameters and the pc alone. -/
theorem fetchFault_congr {s t : State} (hparams : t.params = s.params) (hpc : t.pc = s.pc) : fetchFault t = fetchFault s := by
  rw [fetchFault, fetchFault, hparams, hpc]

/-- Settles O34: whether a fetch is admitted, its error, the word and so its decoding are the same for both states. -/
theorem stepReadsOnlyTheFetchedBytes : Obligations.StepReadsOnlyTheFetchedBytes := by
  unfold Obligations.StepReadsOnlyTheFetchedBytes
  intro s s' t hparams hpc hfault hbytes hstep
  have hadmit : Fetchable s' ↔ Fetchable s := fetchable_congr hparams hpc
  obtain ⟨hs, ⟨hF, rfl⟩ | ⟨hF, op, hd, rfl⟩ | ⟨hF, d, hd, rfl⟩⟩ := step_next_cases hstep
  all_goals have hs' : s'.fault = none := hfault.trans hs
  case inl =>
    refine ⟨_, [], step_of_not_fetchable hs' (hadmit.not.mpr hF), hpc, ?_, ?_, ?_⟩
    · rw [raise_fault, raise_fault, fetchFault_congr hparams hpc]
    · rw [raise_delivered, List.append_nil]
    · rw [raise_delivered, List.append_nil]
  all_goals
    have hword : wordAt s' s.pc.toNat = wordAt s s.pc.toNat := wordAt_eq_of_fetchReads hF hbytes
    rw [← hword, ← hpc] at hd
  case inr.inl =>
    refine ⟨_, [], step_of_decodeWord_error hs' (hadmit.mpr hF) hd, ?_, ?_, ?_, ?_⟩
    all_goals simp [hpc]
  case inr.inr =>
    refine ⟨_, [⟨s.pc, wordAt s s.pc.toNat, d⟩], step_of_decodeWord_ok hs' (hadmit.mpr hF) hd, ?_, ?_, ?_, ?_⟩
    all_goals simp [hpc, hs, hs', hword]

/-- The first of several steps. -/
theorem runSteps_succ {n : Nat} {s t : State} (h : runSteps (n + 1) s = .next t) :
    ∃ u, step s = .next u ∧ runSteps n u = .next t := by
  rw [runSteps] at h
  cases hu : step s with
  | next u => exact ⟨u, rfl, by rwa [hu] at h⟩
  | fault e => rw [hu] at h; cases h
  | refused r => rw [hu] at h; cases h

/-- A run that ends with no fault held began with none: a faulted CORE takes no step. -/
theorem runSteps_fault_eq_none {n : Nat} {s t : State} (h : runSteps n s = .next t) (ht : t.fault = none) :
    s.fault = none := by
  cases n with
  | zero => cases h; exact ht
  | succ n =>
    obtain ⟨u, hu, -⟩ := runSteps_succ h
    exact (step_next_cases hu).1

/-- A step after which no fault is held has delivered the decoding of the word at its pc. -/
theorem step_eq_deliver_of_fault_eq_none {s t : State} (h : step s = .next t) (ht : t.fault = none) :
    ∃ d, decodeWord (wordAt s s.pc.toNat) = .ok d ∧ t = deliver d (advance s (wordAt s s.pc.toNat)) := by
  obtain ⟨-, ⟨-, rfl⟩ | ⟨-, op, -, rfl⟩ | ⟨-, d, hd, rfl⟩⟩ := step_next_cases h
  · cases ht
  · cases ht
  · exact ⟨d, hd, rfl⟩

/-- The deliveries `new` are those of the words from `a` on in the contents that `s` holds, one word after the other (R89). -/
def FallThrough (s : State) (a : Word) (new : List Delivery) : Prop :=
  ∀ (k : Nat) (x : Delivery), new[k]? = some x →
    x.addr = a + BitVec.ofNat 32 (4 * k) ∧ x.raw = wordAt s x.addr.toNat ∧ decodeWord x.raw = .ok x.value

/-- The pc after one step and then `k` more. -/
theorem pc_add_four_add (a : Word) (k : Nat) : a + 4#32 + BitVec.ofNat 32 (4 * k) = a + BitVec.ofNat 32 (4 * (k + 1)) := by
  rw [Nat.mul_succ, Nat.add_comm, BitVec.ofNat_add, BitVec.add_assoc]

/-- One more delivery in front. -/
theorem FallThrough.cons {s : State} {a : Word} {d : DecodedInstruction} {new : List Delivery}
    (hd : decodeWord (wordAt s a.toNat) = .ok d) (h : FallThrough s (a + 4#32) new) :
    FallThrough s a (⟨a, wordAt s a.toNat, d⟩ :: new) := by
  intro k x hx
  cases k with
  | zero =>
    cases hx
    exact ⟨(BitVec.add_zero a).symm, rfl, hd⟩
  | succ k =>
    obtain ⟨haddr, hrest⟩ := h k x hx
    exact ⟨haddr.trans (pc_add_four_add a k), hrest⟩

/-- Settles O35, by induction on the number of steps: the first step delivers the word at the pc, and the rest of the run starts
4 bytes further on in the same contents. -/
theorem runWithoutMovesFallsThrough : Obligations.RunWithoutMovesFallsThrough := by
  unfold Obligations.RunWithoutMovesFallsThrough
  intro n
  induction n with
  | zero =>
    rintro s t h -
    cases h
    exact ⟨(BitVec.add_zero _).symm, fun r => rfl, [], (List.append_nil _).symm, rfl, nofun⟩
  | succ n ih =>
    intro s t h ht
    obtain ⟨u, hu, hrun⟩ := runSteps_succ h
    obtain ⟨d, hd, rfl⟩ := step_eq_deliver_of_fault_eq_none hu (runSteps_fault_eq_none hrun ht)
    obtain ⟨hpc, hregs, new, hdel, hlen, hfall⟩ := ih _ t hrun ht
    refine ⟨?_, hregs, ⟨s.pc, wordAt s s.pc.toNat, d⟩ :: new, ?_, congrArg (· + 1) hlen, FallThrough.cons hd hfall⟩
    · exact hpc.trans (pc_add_four_add s.pc n)
    · rw [hdel, deliver_delivered, List.append_assoc]
      rfl

end Sys2Proof.Machine
end

section
/-! SUPPORT. What each instruction delivers, the range of its immediate, and the words that hold none (R25 to R28, R55 to R61). -/

namespace Sys2Proof.Machine

/-- Settles O8: every meaning delivers the instruction's value, whose immediate stage is `sext_N`. -/
theorem everyInstructionCompletes : Obligations.EveryInstructionCompletes := by
  unfold Obligations.EveryInstructionCompletes
  refine ⟨fun rd f3 rs1 rs2 f7 s => ?r, fun rd f3 rs1 raw s => ?i, fun f3 rs1 rs2 raw s => ?s,
    fun f3 rs1 rs2 raw s => ?b, fun rd raw s => ?u, fun rd raw s => ?j⟩
  case r | u => exact exec_eq_deliver _ s
  case i | s | b | j =>
    rw [← signext_eq_signExtend]
    exact exec_eq_deliver _ s

/-- Settles O9: `deliver` writes the deliveries alone. -/
theorem formatDecodersWriteOnlyTheDelivery : Obligations.FormatDecodersWriteOnlyTheDelivery := by
  unfold Obligations.FormatDecodersWriteOnlyTheDelivery
  intro i s
  have hctx : SameContext s (deliver (valueOf i) s) := ⟨rfl, rfl, rfl⟩
  exact ⟨_, valueOf i, exec_eq_deliver i s, rfl, rfl, hctx.readReg_eq, hctx.memByte_eq, rfl, rfl, rfl, rfl⟩

/-- Every recognised opcode ends in `0b11`. -/
theorem format_opcode_low (f : Format) : f.opcode.extractLsb' 0 2 = 0b11#2 := by cases f <;> decide

/-- The low two bits of a word are those of its opcode. -/
theorem opcodeOf_low (w : Word) : (opcodeOf w).extractLsb' 0 2 = w.extractLsb' 0 2 :=
  BitVec.extractLsb'_extractLsb'_of_le (by decide)

/-- Settles O12: a word that does not end in `0b11` has no format's opcode; the opcodes are counted. -/
theorem illegalEncodingsAreCounted : Obligations.IllegalEncodingsAreCounted := by
  unfold Obligations.IllegalEncodingsAreCounted
  refine ⟨fun w hw => decodeWord_of_unrecognised ?_, rfl⟩
  cases hf : formatOf (opcodeOf w) with
  | none => rfl
  | some f =>
    have hop : opcodeOf w = f.opcode := (formatOf_eq_some_iff _ f).mp hf
    rw [← opcodeOf_low, hop, format_opcode_low] at hw
    exact absurd rfl hw

/-- The sign-extension stage keeps the integer a raw value means, which lies in the range of its width. -/
theorem signext_toInt {w : Nat} (hw : w ≤ 32) (raw : BitVec w) : (signext w raw).toInt = raw.toInt := by
  rw [signext_eq_signExtend, BitVec.toInt_signExtend_of_le hw]

/-- A raw value with one 0 appended means twice an integer, in the range of the bits before the 0. -/
theorem signext_append_zero_range {n : Nat} (hn : n + 2 ≤ 32) (x : BitVec (n + 1)) :
    -2 ^ (n + 1) ≤ (signext (n + 2) (x ++ 0#1)).toInt ∧ (signext (n + 2) (x ++ 0#1)).toInt ≤ 2 ^ (n + 1) - 2 ∧
      (signext (n + 2) (x ++ 0#1)).toInt % 2 = 0 := by
  have heq : (signext (n + 2) (x ++ 0#1)).toInt = 2 * x.toInt := (signext_toInt hn _).trans BitVec.toInt_append_zero
  have hlo : -2 ^ (n + 1) ≤ 2 * x.toInt := BitVec.le_two_mul_toInt
  have hhi : x.toInt < 2 ^ n := BitVec.toInt_lt
  rw [pow_succ] at *
  omega

/-- A 12-bit immediate. -/
theorem signext_twelve_range (raw : BitVec 12) : -2048 ≤ (signext 12 raw).toInt ∧ (signext 12 raw).toInt ≤ 2047 := by
  rw [signext_toInt (by decide)]
  exact ⟨BitVec.le_toInt raw, Int.le_of_lt_add_one BitVec.toInt_lt⟩

/-- An upper immediate is a multiple of 4096 below `2 ^ 32`. -/
theorem rawU_range (w : Word) : (rawU w).toNat ≤ 4294963200 ∧ (rawU w).toNat % 4096 = 0 := by
  have hlow : (rawU w).toNat % 4096 = 0 := by simpa using congrArg BitVec.toNat (rawU_low w)
  exact ⟨by omega, hlow⟩

/-- Settles O16: the range of each format's raw immediate. -/
theorem immediateMeaningsStayInRange : Obligations.ImmediateMeaningsStayInRange := by
  unfold Obligations.ImmediateMeaningsStayInRange
  intro w d n hd hn
  obtain ⟨f, -, rfl⟩ := exists_format_of_decodeWord_ok hd
  rw [valueOf_format, instrOf_format]
  cases f <;> cases hn
  case i => exact signext_twelve_range (rawI w)
  case s => exact signext_twelve_range (rawS w)
  case b => exact signext_append_zero_range (by decide) _
  case u =>
    obtain ⟨hle, hmod⟩ := rawU_range w
    exact ⟨Int.natCast_nonneg _, Int.ofNat_le.mpr hle, congrArg Int.ofNat hmod⟩
  case j => exact signext_append_zero_range (by decide) _

end Sys2Proof.Machine
end

section
/-! SUPPORT. The reference structure of R82 and the output ports of R29, each against what DECODE and the step answer. -/

namespace Sys2Proof.Machine

/-- The multiplexer of the reference structure is the sign-extension stage. -/
theorem signMux_eq_signext {w : Nat} (raw : BitVec w) : signMux w raw = signext w raw := by
  unfold signMux signext
  cases raw.msb
  · simp 
  · rfl

/-- For a recognised opcode one comparator fires, and its format's lines select the fields of the value. -/
theorem wires_show_value {w : Word} {f : Format} (h : opcodeOf w = f.opcode) :
    (wires w).shows (valueOf (instrOf f w)) := by
  cases f
  all_goals
    simp only [wires, Wires.shows, h, comparators_opcode, signMux_eq_signext]
    exact ⟨rfl, rfl, rfl, rfl, rfl, rfl, rfl, rfl, rfl, rfl⟩

/-- For any other opcode no comparator fires, and no field is selected. -/
theorem wires_show_error {w : Word} (h : formatOf (opcodeOf w) = none) : (wires w).showsError (opcodeOf w) := by
  simp only [wires, Wires.showsError, comparators_of_unrecognised h]
  exact ⟨rfl, rfl, rfl, rfl, rfl, rfl, rfl, rfl, rfl, rfl⟩

/-- Settles O20: the two cases of the opcode map. -/
theorem referenceStructureComputesDecode : Obligations.ReferenceStructureComputesDecode := by
  unfold Obligations.ReferenceStructureComputesDecode
  intro w
  cases hf : formatOf (opcodeOf w) with
  | none =>
    rw [decodeWord_of_unrecognised hf]
    exact ⟨wires_show_error hf, rfl⟩
  | some f =>
    have hop : opcodeOf w = f.opcode := (formatOf_eq_some_iff _ f).mp hf
    rw [decodeWord_of_opcode f hop]
    exact wires_show_value hop

/-- After a delivery with no fault held, the last step's result is that delivery. -/
theorem lastResult_deliver {s : State} (hs : s.fault = none) (d : DecodedInstruction) :
    lastResult (deliver d s) = some (.decoded ⟨s.fetchAddr, s.raw, d⟩) := by
  simp [lastResult, hs]

/-- Settles O36: the last result is the delivery or the recorded error, and the ports are the view of that result. -/
theorem portsShowTheResultOfTheStep : Obligations.PortsShowTheResultOfTheStep := by
  unfold Obligations.PortsShowTheResultOfTheStep
  intro s hs
  refine ⟨fun d hF hd => ⟨_, step_of_decodeWord_ok hs hF hd, ?delivered⟩,
    fun op hF hd => ⟨_, step_of_decodeWord_error hs hF hd, rfl⟩, fun hF => ⟨_, step_of_not_fetchable hs hF, ?failed⟩⟩
  case delivered =>
    rw [ports, lastResult_deliver ((advance_fault s _).trans hs)]
    rfl
  case failed =>
    unfold fetchFault
    split <;> rfl

end Sys2Proof.Machine
end

section
/-! SUPPORT. The canonical form of memory is unique: a canonical list is determined by what it reads as. -/

namespace Sys2Proof

/-- A list reads as listed at its first address. -/
theorem Memory.read_head (k : Nat) (v : Byte) (m : Memory) : Memory.read ((k, v) :: m) k = v := by
  rw [Memory.read_cons, if_pos rfl]

/-- What the rest of a canonical list reads as: unlisted at the first address, and elsewhere what the list does. -/
theorem Memory.read_tail {lo k : Nat} {v : Byte} {m : Memory} (h : Memory.wfFrom lo ((k, v) :: m) = true) (a : Nat) :
    Memory.read m a = if k = a then Memory.unlisted else Memory.read ((k, v) :: m) a := by
  obtain ⟨-, -, hm⟩ := (Memory.wfFrom_cons lo k v m).mp h
  split
  case isTrue ha => exact Memory.read_below hm (by omega)
  case isFalse ha => rw [Memory.read_cons, if_neg ha]

/-- Of two canonical lists that read alike, the second begins no later: else it would read as unlisted where the first begins. -/
theorem Memory.head_le_of_read_eq {lo hi j k : Nat} {u v : Byte} {m n : Memory}
    (hm : Memory.wfFrom lo ((j, u) :: m) = true) (hn : Memory.wfFrom hi ((k, v) :: n) = true)
    (h : ∀ a, Memory.read ((j, u) :: m) a = Memory.read ((k, v) :: n) a) : k ≤ j := by
  obtain ⟨-, hu, -⟩ := (Memory.wfFrom_cons lo j u m).mp hm
  obtain ⟨-, hv, hn'⟩ := (Memory.wfFrom_cons hi k v n).mp hn
  have hk : Memory.wfFrom k ((k, v) :: n) = true := (Memory.wfFrom_cons k k v n).mpr ⟨Nat.le_refl k, hv, hn'⟩
  by_contra hlt
  apply hu
  calc u = Memory.read ((j, u) :: m) j := (Memory.read_head j u m).symm
    _ = Memory.read ((k, v) :: n) j := h j
    _ = Memory.unlisted := Memory.read_below hk (Nat.not_le.mp hlt)

/-- A canonical list that lists something does not read as unlisted everywhere. -/
theorem Memory.not_forall_read_unlisted {lo k : Nat} {v : Byte} {m : Memory}
    (h : Memory.wfFrom lo ((k, v) :: m) = true) : ¬ ∀ a, Memory.read ((k, v) :: m) a = Memory.unlisted := by
  obtain ⟨-, hv, -⟩ := (Memory.wfFrom_cons lo k v m).mp h
  exact fun hread => hv ((Memory.read_head k v m).symm.trans (hread k))

/-- Two canonical lists that read alike are equal, whatever addresses they may begin at. -/
theorem Memory.eq_of_read_eq {lo hi : Nat} {m n : Memory} (hm : Memory.wfFrom lo m = true)
    (hn : Memory.wfFrom hi n = true) (h : ∀ a, Memory.read m a = Memory.read n a) : m = n := by
  induction m generalizing lo hi n with
  | nil =>
    cases n with
    | nil => rfl
    | cons c n => exact absurd (fun a => (h a).symm) (Memory.not_forall_read_unlisted hn)
  | cons c m ih =>
    obtain ⟨j, u⟩ := c
    cases n with
    | nil => exact absurd h (Memory.not_forall_read_unlisted hm)
    | cons c n =>
      obtain ⟨k, v⟩ := c
      obtain rfl : j = k :=
        Nat.le_antisymm (Memory.head_le_of_read_eq hn hm fun a => (h a).symm) (Memory.head_le_of_read_eq hm hn h)
      obtain rfl : u = v := (Memory.read_head j u m).symm.trans ((h j).trans (Memory.read_head j v n))
      obtain ⟨-, -, hm'⟩ := (Memory.wfFrom_cons lo j u m).mp hm
      obtain ⟨-, -, hn'⟩ := (Memory.wfFrom_cons hi j u n).mp hn
      rw [ih hm' hn' fun a => by rw [Memory.read_tail hm, Memory.read_tail hn, h]]

/-- Settles O46: `Memory.eq_of_read_eq` for lists that begin at address 0 or later. -/
theorem memoriesThatReadAlikeAreEqual : Obligations.MemoriesThatReadAlikeAreEqual := by
  unfold Obligations.MemoriesThatReadAlikeAreEqual
  exact fun m n hm hn h => Memory.eq_of_read_eq hm hn h

end Sys2Proof
end

section
/-! SUPPORT. Words that the environment or the loader stores where the next step fetches, and a CORE's first step (R43, R111). -/

namespace Sys2Proof.Machine

/-- Four bytes stored from `a` on, one after the other. -/
def storeBytes (s : State) (a : Nat) (b0 b1 b2 b3 : Byte) : State :=
  writeByte (writeByte (writeByte (writeByte s a b0) (a + 1) b1) (a + 2) b2) (a + 3) b3

section
variable (s : State) (a : Nat) (b0 b1 b2 b3 : Byte)

@[simp] theorem storeBytes_params : (storeBytes s a b0 b1 b2 b3).params = s.params := by simp [storeBytes]
@[simp] theorem storeBytes_pc : (storeBytes s a b0 b1 b2 b3).pc = s.pc := by simp [storeBytes]
@[simp] theorem storeBytes_fault : (storeBytes s a b0 b1 b2 b3).fault = s.fault := by simp [storeBytes]
@[simp] theorem storeBytes_regs : (storeBytes s a b0 b1 b2 b3).regs = s.regs := by simp [storeBytes]
@[simp] theorem storeBytes_delivered : (storeBytes s a b0 b1 b2 b3).delivered = s.delivered := by simp [storeBytes]

end

/-- The environment can store four bytes inside memory, by a move each. -/
theorem applyMoves_storeBytes {s : State} {a : Nat} (ha : a + 3 < s.params.memSize) (b0 b1 b2 b3 : Byte) :
    applyMoves [.writeByte a b0, .writeByte (a + 1) b1, .writeByte (a + 2) b2, .writeByte (a + 3) b3] s =
      some (storeBytes s a b0 b1 b2 b3) := by
  have hmove (u : State) (hu : u.params = s.params) (k : Nat) (hk : k ≤ a + 3) (b : Byte) :
      applyMove (.writeByte k b) u = some (writeByte u k b) := if_pos (by rw [hu]; omega)
  simp [applyMoves, hmove, storeBytes]

/-- Four bytes stored at the pc are the word that FETCH then returns. -/
theorem fetch_storeBytes {s : State} (hs : s.mem.wf = true) (hF : Fetchable s) (b0 b1 b2 b3 : Byte) :
    fetch (storeBytes s s.pc.toNat b0 b1 b2 b3) =
      .ok (wordOfBytes b0 b1 b2 b3, advance (storeBytes s s.pc.toNat b0 b1 b2 b3) (wordOfBytes b0 b1 b2 b3)) := by
  have hF' : Fetchable (storeBytes s s.pc.toNat b0 b1 b2 b3) :=
    (fetchable_congr (storeBytes_params ..) (storeBytes_pc ..)).mpr hF
  have hword : wordAt (storeBytes s s.pc.toNat b0 b1 b2 b3) s.pc.toNat = wordOfBytes b0 b1 b2 b3 :=
    (write_four_bytes hs hF.2 b0 b1 b2 b3).1
  rw [fetch_of_fetchable hF', storeBytes_pc, hword]

/-- Settles O42: the four moves are one store at the pc, which FETCH reads and which leaves every other byte alone. -/
theorem writtenBytesAreFetchedNext : Obligations.WrittenBytesAreFetchedNext := by
  unfold Obligations.WrittenBytesAreFetchedNext
  intro s b0 b1 b2 b3 hs hF
  exact ⟨_, _, applyMoves_storeBytes hF.2 b0 b1 b2 b3, fetch_storeBytes hs.memWf hF b0 b1 b2 b3,
    (write_four_bytes hs.memWf hF.2 b0 b1 b2 b3).2⟩

/-- A table word of 32 bits is the word. -/
theorem tableWord_toNat (w : Word) : tableWord 32 w.toNat = w := by
  rw [tableWord, Nat.mod_eq_of_lt w.isLt, BitVec.ofNat_toNat, BitVec.setWidth_eq]

/-- Placing a word clears the fault and stores the word's bytes at the pc. -/
theorem withFetchWord_eq_storeBytes (s : State) (w : Word) :
    s.withFetchWord 32 w.toNat = storeBytes { s with fault := none } s.pc.toNat
      (byteOfWord w 0) (byteOfWord w 1) (byteOfWord w 2) (byteOfWord w 3) := by
  rw [State.withFetchWord, tableWord_toNat]
  rfl

/-- A word placed at a pc that admits a fetch is the word that FETCH then returns. -/
theorem fetch_withFetchWord {s : State} (hs : s.mem.wf = true) (hF : Fetchable s) (w : Word) :
    fetch (s.withFetchWord 32 w.toNat) = .ok (w, advance (s.withFetchWord 32 w.toNat) w) := by
  have h := fetch_storeBytes (s := { s with fault := none }) hs hF
    (byteOfWord w 0) (byteOfWord w 1) (byteOfWord w 2) (byteOfWord w 3)
  rwa [wordOfBytes_byteOfWord, ← withFetchWord_eq_storeBytes] at h

/-- Settles O44: FETCH returns the word placed, and placing it writes memory and the fault status alone. -/
theorem placedWordRunsNext : Obligations.PlacedWordRunsNext := by
  unfold Obligations.PlacedWordRunsNext
  intro s w i hs hF hi
  have hplace := withFetchWord_eq_storeBytes s w
  have hfault : (s.withFetchWord 32 w.toNat).fault = none := by rw [hplace, storeBytes_fault]
  refine ⟨advance (s.withFetchWord 32 w.toNat) w, ?step, rfl, ?_, ?_, ?_, ?_, ?_, hfault⟩
  case step => rw [step_of_decode_ok hfault (fetch_withFetchWord hs.memWf hF w) hi, exec_eq_deliver]
  all_goals simp [hplace]

/-- Settles O43: both ways of starting give a state at `start` with no fault and nothing delivered, whose word DECODE returns
or rejects. -/
theorem bootedCoreFetchesItsFirstWord : Obligations.BootedCoreFetchesItsFirstWord := by
  unfold Obligations.BootedCoreFetchesItsFirstWord
  intro p r start s hboot halign hin
  obtain ⟨hpc, hparams, hs, hdel⟩ : s.pc = start ∧ s.params = p ∧ s.fault = none ∧ s.delivered = [] := by
    rcases hboot with ⟨rfl, rfl⟩ | hmove
    · exact ⟨rfl, rfl, rfl, rfl⟩
    · cases hmove
      exact ⟨rfl, rfl, rfl, rfl⟩
  subst hpc hparams
  have hF : Fetchable s := ⟨fun _ => halign, hin⟩
  cases hf : formatOf (opcodeOf (wordAt s s.pc.toNat)) with
  | none =>
    exact ⟨_, step_of_decodeWord_error hs hF (decodeWord_of_unrecognised hf), rfl, rfl, .inr ⟨hf, rfl, hdel⟩⟩
  | some f =>
    have hd := decodeWord_of_opcode f ((formatOf_eq_some_iff _ f).mp hf)
    refine ⟨_, step_of_decodeWord_ok hs hF hd, rfl, rfl, .inl ⟨_, hd, hs, ?_⟩⟩
    rw [deliver_delivered, advance_delivered, hdel]
    rfl

end Sys2Proof.Machine
end
